-- ==== Sys2Proof/Word.lean ====
section
/-! DEFINITION. The widths the spec gives the block's values (spec/00_scope.md R7): a byte is 8 bits, the CRC and
the unsigned telemetry fields are 16 bits, the operand and the signed telemetry fields are 32-bit patterns, an
operation word is 40 bits (spec/30_encoding.md R50). -/

namespace Sys2Proof

/-- A byte (R7). -/
abbrev Byte := BitVec 8

/-- A 16-bit unsigned value: `u16` of R7. -/
abbrev Half := BitVec 16

/-- A 32-bit pattern; signedness is a matter of the reader (R12). -/
abbrev Word := BitVec 32

/-- An operation word (R50). -/
abbrev OpWord := BitVec 40

end Sys2Proof
end

