-- ==== Sys2Proof/Config.lean ====
section
/-! DEFINITION. The one configuration record of spec/00_scope.md R5 and R6 (decision D25): the source's literals
and the parameters the spec fixes, as named constants with the spec's defaults. A corrected literal is a change of
this record and of nothing else (log entry 15). -/

namespace Sys2Proof

/-- The constants of R5 and the parameters of R6. -/
structure Config where
  /-- `ADDR`: device address byte of every frame the block builds by itself. -/
  addr : Byte := 0x01
  /-- `CMD`: command code byte of every frame the block builds by itself. -/
  cmd : Byte := 0x64
  /-- `SUB_ENABLE`: sub-command byte of the enable frame. -/
  subEnable : Byte := 0x10
  /-- `ENABLE_PAYLOAD`: the four payload bytes of the enable frame. -/
  enablePayload : List Byte := [0x00, 0x00, 0x00, 0x01]
  /-- `SUB_MOVE`: sub-command byte of the move frame. -/
  subMove : Byte := 0x1E
  /-- `RESP_LEN`: exact length in bytes of a response frame. -/
  respLen : Nat := 19
  /-- `FN_EXPECT`: the value byte 1 of a response frame must have. -/
  fnExpect : Byte := 0x64
  /-- `CRC_INIT`: initial value of the CRC accumulator. -/
  crcInit : Half := 0xFFFF
  /-- `CRC_POLY`: the constant XORed in after a right shift that shifted out a 1. -/
  crcPoly : Half := 0xA001
  /-- `CRC_ROUNDS`: rounds per input byte. -/
  crcRounds : Nat := 8
  /-- `PID_REG_KP`: register address of kp in the actuator (R106: data, no address of this block). -/
  pidRegKp : Nat := 688
  /-- `PID_REG_KI`: register address of ki in the actuator. -/
  pidRegKi : Nat := 690
  /-- `PID_REG_KD`: register address of kd in the actuator. -/
  pidRegKd : Nat := 692
  /-- `IBUF_MAX`: capacity of the input buffer in bytes (R6; log entry 3). -/
  ibufMax : Nat := 32
  /-- `OBUF_MAX`: capacity of the output buffer in bytes, fixed by `IBUF_MAX`. -/
  obufMax : Nat := ibufMax + 2
  /-- `BODY_MIN`: least body length the general frame builder accepts. -/
  bodyMin : Nat := 3
  deriving DecidableEq, Repr

/-- The constraints R6 puts on the parameters. -/
abbrev Config.legal (c : Config) : Prop :=
  20 ≤ c.ibufMax ∧ c.obufMax = c.ibufMax + 2 ∧ c.bodyMin = 3

/-- The block's one configuration (R2: "the block has one configuration"): every constant at the spec's value. -/
def config : Config := {}

end Sys2Proof
end

