-- ==== Sys2Proof/Machine/Operands.lean ====
section
/-! DEFINITION. The block's byte-order functions (spec/30_encoding.md R58 to R62) and the readings of spec/00_scope.md
R7 they use. Every operand and every field of the block goes through one of these; each is total and has no state. -/

namespace Sys2Proof.Machine

/-- `signed(v)` of R7: a 32-bit pattern read as two's complement. -/
def signed (v : Word) : Int := v.toInt

/-- `pattern(s)` of R7: the 32-bit pattern of a signed value. -/
def pattern (s : Int) : Word := BitVec.ofInt 32 s

/-- Byte `i` of a value, byte 0 being its bits 7 to 0. -/
def byteOf {n : Nat} (v : BitVec n) (i : Nat) : Byte := v.extractLsb' (8 * i) 8

/-- `be32_pack(w)` (R58): the most significant byte first. -/
def be32Pack (w : Word) : List Byte := [byteOf w 3, byteOf w 2, byteOf w 1, byteOf w 0]

/-- The 32-bit pattern `{ b0, b1, b2, b3 }`, `b0` most significant (R59, before the signed reading). -/
def be32Unpack (b0 b1 b2 b3 : Byte) : Word := b0 ++ b1 ++ b2 ++ b3

/-- `be32_unpack_s(b)` (R59): the big-endian pattern read as two's complement. -/
def be32UnpackS (b0 b1 b2 b3 : Byte) : Int := signed (be32Unpack b0 b1 b2 b3)

/-- `be16_unpack(b)` (R60): `{ b0, b1 }`, unsigned and never sign-extended. -/
def be16Unpack (b0 b1 : Byte) : Half := b0 ++ b1

/-- `le16_pack(c)` (R61): low byte first. Used for the CRC and for nothing else. -/
def le16Pack (c : Half) : List Byte := [byteOf c 0, byteOf c 1]

/-- The 16-bit value of two bytes in little-endian order, the reading of a frame's CRC field (R57). -/
def le16Unpack (lo hi : Byte) : Half := hi ++ lo

/-- The four bytes of a pattern laid out little-endian: `b` of R62. -/
def le32Bytes (w : Word) : List Byte := [byteOf w 0, byteOf w 1, byteOf w 2, byteOf w 3]

/-- `f32_words(w)` (R62): the pattern laid out little-endian in four bytes, which are read as two big-endian
16-bit values, the first two bytes first. -/
def f32Words (w : Word) : Half × Half :=
  (be16Unpack (byteOf w 0) (byteOf w 1), be16Unpack (byteOf w 2) (byteOf w 3))

/-- The byte operand of format B: `b = imm[7:0]`, not extended (R51). -/
def immByte (imm : Word) : Byte := imm.extractLsb' 0 8

/-- The bits format B wants zero: `imm[31:8]` (R51). -/
def immHigh (imm : Word) : BitVec 24 := imm.extractLsb' 8 24

/-- The immediate of a byte operand (R51): zeros above it. -/
def byteImm (b : Byte) : Word := b.setWidth 32

end Sys2Proof.Machine
end

