-- ==== Sys2Proof/Machine/CrcUnit.lean ====
section
/-! DEFINITION. The CRC unit's pure functions (spec/40_crc.md R70 to R72), the frame builder over them
(spec/41_frame_encode.md R80), and the three frame bodies the block or its tables name (R55, R56). -/

namespace Sys2Proof.Machine

/-- `crc_round(a)` (R70): the low bit is tested before the logical shift. -/
def crcRound (a : Half) : Half :=
  if a.getLsbD 0 then (a >>> 1) ^^^ config.crcPoly else a >>> 1

/-- `n` rounds in a row. -/
def crcRounds : Nat → Half → Half
  | 0, a => a
  | n + 1, a => crcRounds n (crcRound a)

/-- `crc_byte(a, b)` (R71): the byte XORed into the low byte of the accumulator, then `CRC_ROUNDS` rounds. -/
def crcByte (a : Half) (b : Byte) : Half :=
  crcRounds config.crcRounds (a ^^^ b.setWidth 16)

/-- `crc_fold(a, data)` (R72): the bytes fed in index order from the start value `a`. -/
def crcFold : Half → List Byte → Half
  | a, [] => a
  | a, b :: bs => crcFold (crcByte a b) bs

/-- `crc16(data)` (R72): the fold from `CRC_INIT`, with no final XOR and no final reversal. -/
def crc16 (data : List Byte) : Half := crcFold config.crcInit data

/-- `build_frame(body)` (R80): the body and its CRC, low byte first. -/
def buildFrame (body : List Byte) : List Byte := body ++ le16Pack (crc16 body)

/-- The body of the enable frame (R55, R81). -/
def enableBody : List Byte := [config.addr, config.cmd, config.subEnable] ++ config.enablePayload

/-- The body of the move frame for a position pattern (R56, R82). -/
def moveBody (position : Word) : List Byte := [config.addr, config.cmd, config.subMove] ++ be32Pack position

end Sys2Proof.Machine
end

