-- ==== Sys2Proof/Syntax.lean ====
section
/-! DEFINITION. The rows of spec/opcode_table.json as ONE inductive: the eleven operations of spec/30_encoding.md
R52, and the three wire layouts of R55 to R57, which the table lists beside them and which are "layouts, not
operations" (log entry 1). Beside it, the three operation word formats of R51 and the form an encoding takes. -/

namespace Sys2Proof

/-- One constructor per row of the opcode table. -/
inductive Instr where
  /-- CRC.INIT (R74). -/
  | crcInit
  /-- CRC.BYTE b (R75). -/
  | crcByte (b : Byte)
  /-- CRC.BUF (R76). -/
  | crcBuf
  /-- ENC.ENABLE (R81). -/
  | encEnable
  /-- ENC.MOVE (R82). -/
  | encMove
  /-- ENC.FRAME (R83). -/
  | encFrame
  /-- DEC.RESP (R90). -/
  | decResp
  /-- PACK.F32 (R105). -/
  | packF32
  /-- IB.CLR (R110). -/
  | ibClr
  /-- IB.PUSH b (R111). -/
  | ibPush (b : Byte)
  /-- SET.OPA w (R112). -/
  | setOpa (w : Word)
  /-- WIRE.ENABLE: the layout of the enable frame (R55), every byte of it constant. -/
  | wireEnable
  /-- WIRE.MOVE: the layout of the move frame (R56), with its position pattern and its CRC. -/
  | wireMove (position : Word) (crc : Half)
  /-- WIRE.RESPONSE: the layout of the response frame (R57), with every field but the fixed function code. -/
  | wireResponse (address : Byte) (position force : Word) (power : Half) (temp : Byte) (volt errs crc : Half)
  deriving DecidableEq, Repr

/-- The three operation word formats of R51: no immediate, a byte, a 32-bit pattern. -/
inductive Format where
  | n
  | b
  | w
  deriving DecidableEq, Repr

/-- What an encoding is on this hardware: a 40-bit operation word (R50), a value on the block's operation port with
no byte order, or the bytes of a wire frame in wire order (R31). -/
inductive Encoded where
  | word (w : OpWord)
  | frame (bytes : List Byte)
  deriving DecidableEq, Repr

/-- Whether a row of the table is an operation of R52. The three `WIRE.` rows are not: "they have no operation
code" (spec/30_encoding.md, opening). -/
def Instr.isOperation : Instr → Bool
  | .crcInit => true
  | .crcByte _ => true
  | .crcBuf => true
  | .encEnable => true
  | .encMove => true
  | .encFrame => true
  | .decResp => true
  | .packF32 => true
  | .ibClr => true
  | .ibPush _ => true
  | .setOpa _ => true
  | .wireEnable => false
  | .wireMove _ _ => false
  | .wireResponse _ _ _ _ _ _ _ _ => false

end Sys2Proof
end

