-- ==== Sys2Proof/WellFormed.lean ====
section
/-! DEFINITION. Which instructions are well formed. The types of Syntax.lean already hold every operand of an
operation to its field (R51), so each operation is well formed; of the wire layouts, the move frame has the one field
that its own row of spec/30_encoding.md R56 ties to the rest: "`crc16` of bytes 0 to 6". The response's CRC is tied
to nothing (R57: "not checked, not stored"; log entry 13). -/

namespace Sys2Proof

/-- The well-formedness check. -/
def Instr.wellFormed : Instr → Bool
  | .crcInit => true
  | .crcByte _ => true
  | .crcBuf => true
  | .encEnable => true
  | .encMove => true
  | .encFrame => true
  | .decResp => true
  | .packF32 => true
  | .ibClr => true
  | .ibPush _ => true
  | .setOpa _ => true
  | .wireEnable => true
  | .wireMove position crc => crc == Machine.crc16 (Machine.moveBody position)
  | .wireResponse _ _ _ _ _ _ _ _ => true

end Sys2Proof
end

