-- ==== Sys2Proof/Decode.lean ====
section
/-! DEFINITION. The decoder of operation words (spec/30_encoding.md R50 to R53), total on every 40-bit value and
rejecting by name; the reader of the three wire layouts (R55 to R57); the encoder, written from the same tables;
and the host's numbering of the table's rows. -/

namespace Sys2Proof

/-- Why an encoding is no instruction. The first two are the two grounds on which R53 calls an operation word
illegal; the others are about bytes that fit none of the wire layouts. -/
inductive DecodeError where
  /-- `op` is not one of the eleven codes of R52. -/
  | undefinedOp (op : Byte)
  /-- A bit of `imm` that the format says must be zero is 1 (R51). -/
  | mustBeZero (op : Byte) (imm : Word)
  /-- A byte sequence of a length no wire layout has. -/
  | noLayoutLength (n : Nat)
  /-- A byte sequence of 9 or 19 bytes whose fixed bytes are no layout's. -/
  | noLayoutContent
  deriving DecidableEq, Repr

/-- The `op` field, bits 39 to 32 (R50). -/
def opOf (w : OpWord) : Byte := w.extractLsb' 32 8

/-- The `imm` field, bits 31 to 0 (R50). -/
def immOf (w : OpWord) : Word := w.extractLsb' 0 32

/-- The operation word of an `op` and an `imm`: `(op << 32) | imm` (R50, R65). -/
def packWord (op : Byte) (imm : Word) : OpWord := op ++ imm

/-- Format N (R51): all of `imm` must be zero. -/
def formatN (i : Instr) (op : Byte) (imm : Word) : Except DecodeError Instr :=
  if imm = 0 then .ok i else .error (.mustBeZero op imm)

/-- Format B (R51): `imm[31:8]` must be zero; the operand is `imm[7:0]`. -/
def formatB (f : Byte → Instr) (op : Byte) (imm : Word) : Except DecodeError Instr :=
  if Machine.immHigh imm = 0 then .ok (f (Machine.immByte imm)) else .error (.mustBeZero op imm)

/-- Format W (R51): nothing must be zero; the operand is `imm` as it stands. -/
def formatW (f : Word → Instr) (imm : Word) : Except DecodeError Instr := .ok (f imm)

/-- The operation code map of R52: the whole 8-bit code is matched, and every other code is illegal (R53). -/
def decodeFields (op : Byte) (imm : Word) : Except DecodeError Instr :=
  if op = 0x01 then formatN .crcInit op imm
  else if op = 0x02 then formatB .crcByte op imm
  else if op = 0x03 then formatN .crcBuf op imm
  else if op = 0x10 then formatN .encEnable op imm
  else if op = 0x11 then formatN .encMove op imm
  else if op = 0x12 then formatN .encFrame op imm
  else if op = 0x20 then formatN .decResp op imm
  else if op = 0x30 then formatN .packF32 op imm
  else if op = 0x40 then formatN .ibClr op imm
  else if op = 0x41 then formatB .ibPush op imm
  else if op = 0x42 then formatW .setOpa imm
  else .error (.undefinedOp op)

/-- The decoder of operation words. -/
def decodeWord (w : OpWord) : Except DecodeError Instr := decodeFields (opOf w) (immOf w)

/-- Nine bytes as a command layout: the enable frame (R55), every byte of it constant, or the move frame (R56) by its
three header bytes. The CRC field of a move frame is read as it stands; whether it is the CRC of the body is
well-formedness. -/
def readCommandLayout (b0 b1 b2 b3 b4 b5 b6 b7 b8 : Byte) : Except DecodeError Instr :=
  if [b0, b1, b2, b3, b4, b5, b6, b7, b8] = Machine.buildFrame Machine.enableBody then .ok .wireEnable
  else if b0 = config.addr ∧ b1 = config.cmd ∧ b2 = config.subMove then
    .ok (.wireMove (Machine.be32Unpack b3 b4 b5 b6) (Machine.le16Unpack b7 b8))
  else .error .noLayoutContent

/-- Nineteen bytes as the response layout (R57), by the function code. -/
def readResponseLayout (b0 b1 b2 b3 b4 b5 b6 b7 b8 b9 b10 b11 b12 b13 b14 b15 b16 b17 b18 : Byte) :
    Except DecodeError Instr :=
  if b1 = config.fnExpect then
    .ok (.wireResponse b0 (Machine.be32Unpack b2 b3 b4 b5) (Machine.be32Unpack b6 b7 b8 b9)
      (Machine.be16Unpack b10 b11) b12 (Machine.be16Unpack b13 b14) (Machine.be16Unpack b15 b16)
      (Machine.le16Unpack b17 b18))
  else .error .noLayoutContent

/-- Reads a byte sequence as one of the three wire layouts, by its length (R55 to R57, R63). -/
def decodeFrame : List Byte → Except DecodeError Instr
  | [b0, b1, b2, b3, b4, b5, b6, b7, b8] => readCommandLayout b0 b1 b2 b3 b4 b5 b6 b7 b8
  | [b0, b1, b2, b3, b4, b5, b6, b7, b8, b9, b10, b11, b12, b13, b14, b15, b16, b17, b18] =>
    readResponseLayout b0 b1 b2 b3 b4 b5 b6 b7 b8 b9 b10 b11 b12 b13 b14 b15 b16 b17 b18
  | bs => .error (.noLayoutLength bs.length)

/-- The decoder: an operation word by R52, the bytes of a frame by R55 to R57. -/
def decode : Encoded → Except DecodeError Instr
  | .word w => decodeWord w
  | .frame bs => decodeFrame bs

/-- The bytes of a big-endian 16-bit field (R34). -/
def be16Bytes (v : Half) : List Byte := [Machine.byteOf v 1, Machine.byteOf v 0]

/-- The encoder, from the code map of R52, the formats of R51 and the layouts of R55 to R57. -/
def encode : Instr → Encoded
  | .crcInit => .word (packWord 0x01 0)
  | .crcByte b => .word (packWord 0x02 (Machine.byteImm b))
  | .crcBuf => .word (packWord 0x03 0)
  | .encEnable => .word (packWord 0x10 0)
  | .encMove => .word (packWord 0x11 0)
  | .encFrame => .word (packWord 0x12 0)
  | .decResp => .word (packWord 0x20 0)
  | .packF32 => .word (packWord 0x30 0)
  | .ibClr => .word (packWord 0x40 0)
  | .ibPush b => .word (packWord 0x41 (Machine.byteImm b))
  | .setOpa w => .word (packWord 0x42 w)
  | .wireEnable => .frame (Machine.buildFrame Machine.enableBody)
  | .wireMove position crc => .frame (Machine.moveBody position ++ Machine.le16Pack crc)
  | .wireResponse address position force power temp volt errs crc =>
    .frame ([address, config.fnExpect] ++ Machine.be32Pack position ++ Machine.be32Pack force
      ++ be16Bytes power ++ [temp] ++ be16Bytes volt ++ be16Bytes errs ++ Machine.le16Pack crc)

/-- The format of an operation (R52); a wire layout has none. -/
def formatOf : Instr → Option Format
  | .crcInit => some .n
  | .crcByte _ => some .b
  | .crcBuf => some .n
  | .encEnable => some .n
  | .encMove => some .n
  | .encFrame => some .n
  | .decResp => some .n
  | .packF32 => some .n
  | .ibClr => some .n
  | .ibPush _ => some .b
  | .setOpa _ => some .w
  | .wireEnable => none
  | .wireMove _ _ => none
  | .wireResponse _ _ _ _ _ _ _ _ => none

/-- The bits of an operation word that a format fixes: the table's `mask`, the code and the must-be-zero bits of
`imm` (R51). -/
def formatMask : Format → OpWord
  | .n => 0xFFFFFFFFFF
  | .b => 0xFFFFFFFF00
  | .w => 0xFF00000000

/-- The table's `match` and `mask` of an operation (spec/opcode_table.json): a word `x` is that operation when
`x and mask = match`. -/
def rowOf : Instr → Option (OpWord × OpWord)
  | .crcInit => some (0x0100000000, 0xFFFFFFFFFF)
  | .crcByte _ => some (0x0200000000, 0xFFFFFFFF00)
  | .crcBuf => some (0x0300000000, 0xFFFFFFFFFF)
  | .encEnable => some (0x1000000000, 0xFFFFFFFFFF)
  | .encMove => some (0x1100000000, 0xFFFFFFFFFF)
  | .encFrame => some (0x1200000000, 0xFFFFFFFFFF)
  | .decResp => some (0x2000000000, 0xFFFFFFFFFF)
  | .packF32 => some (0x3000000000, 0xFFFFFFFFFF)
  | .ibClr => some (0x4000000000, 0xFFFFFFFFFF)
  | .ibPush _ => some (0x4100000000, 0xFFFFFFFF00)
  | .setOpa _ => some (0x4200000000, 0xFF00000000)
  | .wireEnable => none
  | .wireMove _ _ => none
  | .wireResponse _ _ _ _ _ _ _ _ => none

/-- The `n` bytes of a number, the most significant first. -/
def bytesOfNat : Nat → Nat → List Byte
  | 0, _ => []
  | n + 1, w => BitVec.ofNat 8 (w / 256 ^ n) :: bytesOfNat n w

/-- The bytes a row's number stands for where the row is a wire layout (log entry 9). The table prints such a row in
wire order, byte 0 first; the number of that string has byte 0 on top. A number that is no layout so read is laid out
with byte 0 in bits 7 to 0. -/
def tableFrame (nbits w : Nat) : List Byte :=
  let bytes := bytesOfNat (nbits / 8) w
  match decodeFrame bytes with
  | .ok _ => bytes
  | .error _ => bytes.reverse

/-- A row's number as an encoding: up to 40 bits an operation word, above that the bytes of a wire layout. -/
def tableEncoding (nbits w : Nat) : Encoded :=
  if nbits ≤ 40 then .word (BitVec.ofNat 40 w) else .frame (tableFrame nbits w)

/-- What the decoder reads from a row of the opcode table whose bits are the number `w`. -/
def decodeTableWord (nbits w : Nat) : Option Instr := (decode (tableEncoding nbits w)).toOption

end Sys2Proof
end

