-- ==== Sys2Proof/Machine/Memory.lean ====
section
/-! DEFINITION. A byte buffer (spec/20_memory.md R30): bytes at indices from 0, held as (index, byte) pairs with
indices strictly rising, so that equal buffers are equal lists. An unlisted index has NO value: spec/10_state.md R25
leaves the buffers' bytes unspecified after reset, and "a model gives the item no value and refuses to read it until
it has been written" (log entry 4). -/

namespace Sys2Proof.Machine

/-- A buffer's written bytes. -/
abbrev Memory := List Host.Cell

/-- The canonical form: indices strictly rising. An unlisted index reads as no value, so no entry can equal it. -/
abbrev Memory.wf (m : Memory) : Prop := m.Pairwise fun x y => x.1 < y.1

/-- One byte, if it has been written. -/
def Memory.read : Memory → Nat → Option (BitVec 8)
  | [], _ => none
  | (a, b) :: m, k => if k = a then some b else Memory.read m k

/-- Write of one byte, keeping the indices rising. -/
def Memory.write : Memory → Nat → BitVec 8 → Memory
  | [], k, v => [(k, v)]
  | (a, b) :: m, k, v =>
    if k < a then (k, v) :: (a, b) :: m
    else if k = a then (k, v) :: m
    else (a, b) :: Memory.write m k v

/-- The `n` bytes at `k`, `k + 1`, …, in index order, if all have been written. -/
def Memory.readBytes (m : Memory) : Nat → Nat → Option (List (BitVec 8))
  | _, 0 => some []
  | k, n + 1 =>
    match Memory.read m k, Memory.readBytes m (k + 1) n with
    | some b, some bs => some (b :: bs)
    | _, _ => none

/-- A byte sequence written at `k`, `k + 1`, …, in index order. -/
def Memory.writeBytes : Memory → Nat → List (BitVec 8) → Memory
  | m, _, [] => m
  | m, k, b :: bs => Memory.writeBytes (Memory.write m k b) (k + 1) bs

end Sys2Proof.Machine
end

