-- ==== Sys2Proof/Machine/State.lean ====
section
/-! DEFINITION. The state of the block, as spec/10_state.md R10 gives it ("the whole state of the block is the
following, and nothing else"), the model's own list of what the host presents next (log entry 2), the state after
reset (R25, R140), and the reasons a step can stop. -/

namespace Sys2Proof.Machine

/-- The error codes of spec/60_exceptions.md R121; codes 5, 6 and 7 are never written. Their numbers are
`ErrCode.code` in Machine/Flags.lean. -/
inductive ErrCode where
  /-- 0: the last operation succeeded. -/
  | none
  /-- 1: DEC.RESP with a length other than `RESP_LEN` (R122). -/
  | badLength
  /-- 2: DEC.RESP with a wrong byte 1 (R123). -/
  | badFunction
  /-- 3: an operation word that names no operation (R124). -/
  | illegalOp
  /-- 4: ENC.FRAME with too short a body, or IB.PUSH into a full buffer (R125). -/
  | badOperand
  deriving DecidableEq, Repr

/-- The telemetry record of R14, written all six together. The signed registers hold their 32-bit pattern. -/
structure Telemetry where
  /-- `T.POS`: position, µm, signed. -/
  pos : Word
  /-- `T.FORCE`: force, mN, signed. -/
  force : Word
  /-- `T.POWER`: power, W, unsigned. -/
  power : Half
  /-- `T.TEMP`: temperature, °C, unsigned. -/
  temp : Byte
  /-- `T.VOLT`: voltage, mV, unsigned. -/
  volt : Half
  /-- `T.ERR`: error bitmap. -/
  err : Half
  deriving DecidableEq, Repr

/-- What the host can do to the block that changes it (spec/70_reset_and_hazards.md R145): present something on the
operation port, or reset. R50 lets the port carry operation words; a `present` of a frame stands for the host
offering the bytes of a wire layout there, to which the spec gives no meaning (log entry 1). -/
inductive HostEvent where
  | present (e : Encoded)
  | reset
  deriving DecidableEq, Repr

/-- The block's two address spaces (R30). -/
inductive Space where
  | ibuf
  | obuf
  deriving DecidableEq, Repr

/-- The state of R10, and `inbox`. -/
structure State where
  /-- `ACC`, the CRC accumulator (R11). -/
  acc : Half
  /-- `OPA`, the operand register (R12). -/
  opa : Word
  /-- `W0`, the first register value of PACK.F32 (R13). -/
  w0 : Half
  /-- `W1`, the second register value of PACK.F32 (R13). -/
  w1 : Half
  /-- The six `T.x` registers (R14). -/
  telemetry : Telemetry
  /-- `ERR`, the error code of the last operation (R15). -/
  err : ErrCode
  /-- `TVALID`, whether the telemetry is that of a validated response (R16). -/
  tvalid : Bool
  /-- `ILEN`, the number of valid bytes of `IBUF` (R17). -/
  ilen : Nat
  /-- `OLEN`, the number of valid bytes of `OBUF` (R18). -/
  olen : Nat
  /-- `IBUF`, the input buffer's written bytes (R23, R30). -/
  ibuf : Memory
  /-- `OBUF`, the output buffer's written bytes (R23, R30). -/
  obuf : Memory
  /-- THE MODEL'S OWN FIELD, no state of the block: what the host presents from here on, in the order it presents it
  (R20, R39; log entry 2). -/
  inbox : List HostEvent
  deriving DecidableEq, Repr

/-- The state after reset (R25, R140). The telemetry registers are unspecified there: zero is the model's choice and
no operation or host read shows it (log entry 5). The buffers list nothing: their bytes have no value (log entry 4).
Nothing is presented yet. -/
def State.reset : State where
  acc := config.crcInit
  opa := 0
  w0 := 0
  w1 := 0
  telemetry := ⟨0, 0, 0, 0, 0, 0⟩
  err := .none
  tvalid := false
  ilen := 0
  olen := 0
  ibuf := []
  obuf := []
  inbox := []

/-- Why the machine stops. No state that a run reaches raises one (Safety.lean's invariant rules both out). -/
inductive Fault where
  /-- Raised by CRC.BUF, ENC.FRAME and DEC.RESP when a byte they read lies outside the buffer or has never been
  written: the reads R44 says cannot be stated. Safe: the model stops where the spec gives no value. -/
  | unreadable (sp : Space)
  /-- Raised by IB.PUSH and ENC.FRAME when a byte they write lies at an index the buffer does not have (R30), which
  takes an `ILEN` above `IBUF_MAX`. Safe: the model stops where the spec gives no address. -/
  | outsideBuffer (sp : Space)
  deriving DecidableEq, Repr

/-- Why something is given no meaning. -/
inductive Refusal where
  /-- Raised by exec for an instruction that has no meaning yet. Safe. No arm of this model does. -/
  | notModelled (mnemonic : String)
  /-- Raised for the three `WIRE.` rows of the opcode table: "layouts, not operations", without an operation code
  (log entry 1). Safe: the block has no such operation. -/
  | layoutNotOperation (mnemonic : String)
  /-- Raised by step when the host offers bytes on the operation port that are no wire layout either. Safe. -/
  | notAnOperationWord
  /-- Raised by a host read of a `T.x` register while `TVALID` is 0 (R24, S1, S2). Safe. -/
  | telemetryNotValid
  /-- Raised by a host read of a buffer byte at or beyond its length (R24, R44, S3). Safe. -/
  | beyondLength (sp : Space) (index : Nat)
  deriving DecidableEq, Repr

end Sys2Proof.Machine
end

