-- ==== Sys2Proof/Machine/Flags.lean ====
section
/-! DEFINITION. The block's two status items: `ERR` (spec/10_state.md R15, written by every operation and not
sticky) and `TVALID` (R16, written by DEC.RESP alone). -/

namespace Sys2Proof.Machine

/-- The 3-bit number of an error code (R121). -/
def ErrCode.code : ErrCode → BitVec 3
  | .none => 0
  | .badLength => 1
  | .badFunction => 2
  | .illegalOp => 3
  | .badOperand => 4

/-- The successful ending of an operation: `ERR <- 0` (R120). -/
def succeed (s : State) : State := { s with err := .none }

/-- `TVALID <- v` (R16). -/
def setTvalid (v : Bool) (s : State) : State := { s with tvalid := v }

end Sys2Proof.Machine
end

