-- ==== Sys2Proof/Machine/Ops.lean ====
section
/-! DEFINITION. The shared operations: `MemRead` and `MemWrite` (spec/00_scope.md R8), ending an operation with an
error (R8 `raise`, spec/60_exceptions.md R120, R127), leaving a built frame in `OBUF` (spec/41_frame_encode.md R80),
and taking what the host presents. -/

namespace Sys2Proof.Machine

/-- The capacity of a buffer (R30). -/
def Space.capacity : Space → Nat
  | .ibuf => config.ibufMax
  | .obuf => config.obufMax

/-- A buffer's bytes. -/
def State.buffer (s : State) : Space → Memory
  | .ibuf => s.ibuf
  | .obuf => s.obuf

/-- A buffer's current length: `ILEN` or `OLEN` (R8). -/
def State.bufferLen (s : State) : Space → Nat
  | .ibuf => s.ilen
  | .obuf => s.olen

/-- A state with one buffer's bytes replaced. -/
def State.setBuffer (s : State) : Space → Memory → State
  | .ibuf, m => { s with ibuf := m }
  | .obuf, m => { s with obuf := m }

/-- `MemRead(space, addr, n)` (R8): "defined only when every index is below the buffer's current length", and, in
this model, exists and has been written. -/
def memRead (sp : Space) (addr n : Nat) (s : State) : Option (List Byte) :=
  if addr + n ≤ s.bufferLen sp ∧ addr + n ≤ sp.capacity then Memory.readBytes (s.buffer sp) addr n else none

/-- `MemWrite(space, addr, n, v)` (R8), defined only at indices the buffer has (R30; log entry 6). -/
def memWrite (sp : Space) (addr : Nat) (v : List Byte) (s : State) : Option State :=
  if addr + v.length ≤ sp.capacity then some (s.setBuffer sp (Memory.writeBytes (s.buffer sp) addr v)) else none

/-- `raise <Error>` (R8, R120, R127): THE ONE ENTRY OF AN ERROR. `ERR` takes the error's code and nothing else is
saved or changed; there is no pc, mode or vector, control goes nowhere, and there is no return (R128): the next
operation simply overwrites `ERR`. -/
def raiseError (e : ErrCode) (s : State) : State := { s with err := e }

/-- The ending of an operation word that names no operation (R53, R124). -/
def raiseIllegalOp (s : State) : State := raiseError .illegalOp s

/-- The common end of the three ENC operations: `body ++ le16_pack(crc16(body))` in `OBUF` from index 0, its length
in `OLEN`, its CRC in `ACC` (R80, R81, R82, R83). -/
def emitFrame (body : List Byte) (s : State) : Host.Outcome State Fault Refusal :=
  match memWrite .obuf 0 (buildFrame body) s with
  | some s' => .next (succeed { s' with olen := body.length + 2, acc := crc16 body })
  | none => .fault (.outsideBuffer .obuf)

/-- The reset event (R140, log entry 8): every piece of the block's state at its value after reset. What the host presents next is
the host's and stays. -/
def applyReset (s : State) : State := { State.reset with inbox := s.inbox }

/-- The host presents something, ahead of what it was going to present. -/
def presentFirst (e : Encoded) (s : State) : State := { s with inbox := .present e :: s.inbox }

/-- What the host does next, if anything, and the state with it taken (R39: in the order presented). -/
def takeEvent (s : State) : Option (HostEvent × State) :=
  match s.inbox with
  | [] => none
  | e :: rest => some (e, { s with inbox := rest })

/-- The ending of a presentation that decodes to no instruction: IllegalOp for an operation word (R53); for bytes,
which the port does not carry (R50), a refusal. -/
def rejectPresented (e : Encoded) (s : State) : Host.Outcome State Fault Refusal :=
  match e with
  | .word _ => .next (raiseIllegalOp s)
  | .frame _ => .refused .notAnOperationWord

end Sys2Proof.Machine
end

