-- ==== Sys2Proof/Machine/Buffers.lean ====
section
/-! DEFINITION. Loading the input buffer and the operand: IB.CLR, IB.PUSH, SET.OPA (spec/45_buffer_operand.md R110
to R112). -/

namespace Sys2Proof.Machine

/-- IB.CLR (R110): `ILEN <- 0`; no byte of `IBUF` is erased. -/
def execIbClr (s : State) : Host.Outcome State Fault Refusal := .next (succeed { s with ilen := 0 })

/-- IB.PUSH b (R111): the byte at index `ILEN`, then `ILEN + 1`; a full buffer is BadOperand and the byte is
dropped. -/
def execIbPush (b : Byte) (s : State) : Host.Outcome State Fault Refusal :=
  if s.ilen = config.ibufMax then .next (raiseError .badOperand s)
  else
    match memWrite .ibuf s.ilen [b] s with
    | some s' => .next (succeed { s' with ilen := s.ilen + 1 })
    | none => .fault (.outsideBuffer .ibuf)

/-- SET.OPA w (R112): `OPA <- w`, the pattern as it stands. -/
def execSetOpa (w : Word) (s : State) : Host.Outcome State Fault Refusal := .next (succeed { s with opa := w })

end Sys2Proof.Machine
end

