-- ==== Sys2Proof/Machine/Crc.lean ====
section
/-! DEFINITION. The CRC unit's operations: CRC.INIT, CRC.BYTE, CRC.BUF (spec/40_crc.md R74 to R76). -/

namespace Sys2Proof.Machine

/-- CRC.INIT (R74): `ACC <- 0xFFFF`. -/
def execCrcInit (s : State) : Host.Outcome State Fault Refusal :=
  .next (succeed { s with acc := config.crcInit })

/-- CRC.BYTE b (R75): `ACC <- crc_byte(ACC, b)`, from whatever `ACC` holds. -/
def execCrcByte (b : Byte) (s : State) : Host.Outcome State Fault Refusal :=
  .next (succeed { s with acc := crcByte s.acc b })

/-- CRC.BUF (R76): `ACC <- crc16(IBUF[0..ILEN-1])`, whatever `ACC` held. -/
def execCrcBuf (s : State) : Host.Outcome State Fault Refusal :=
  match memRead .ibuf 0 s.ilen s with
  | some data => .next (succeed { s with acc := crc16 data })
  | none => .fault (.unreadable .ibuf)

end Sys2Proof.Machine
end

