-- ==== Sys2Proof/Machine/Unpack.lean ====
section
/-! DEFINITION. The telemetry unpacker (spec/43_telemetry_unpack.md R95 to R102): a function of a response frame's
bytes 2 to 16, reached only through DEC.RESP. -/

namespace Sys2Proof.Machine

/-- The six fields of the 15 bytes `f[2..16]` (R96 to R101, at the offsets of spec/30_encoding.md R57). -/
def unpackFields : List Byte → Option Telemetry
  | [b2, b3, b4, b5, b6, b7, b8, b9, b10, b11, b12, b13, b14, b15, b16] =>
    some {
      pos := be32Unpack b2 b3 b4 b5
      force := be32Unpack b6 b7 b8 b9
      power := be16Unpack b10 b11
      temp := b12
      volt := be16Unpack b13 b14
      err := be16Unpack b15 b16 }
  | _ => none

/-- `unpack_telemetry(f)` (R95), "not defined on sequences of any other length" than 19. -/
def unpackTelemetry (f : List Byte) : Option Telemetry :=
  if f.length = 19 then unpackFields ((f.drop 2).take 15) else none

/-- `T.POS` read as its `s32` (R96). -/
def Telemetry.posSigned (t : Telemetry) : Int := signed t.pos

/-- `T.FORCE` read as its `s32` (R97). -/
def Telemetry.forceSigned (t : Telemetry) : Int := signed t.force

end Sys2Proof.Machine
end

