-- ==== Sys2Proof/Machine/FrameDecode.lean ====
section
/-! DEFINITION. Validating and decoding a response frame: DEC.RESP (spec/42_frame_decode.md R90 to R94). -/

namespace Sys2Proof.Machine

/-- The ending of a rejected response (R92): `TVALID <- 0`, the error's code, and nothing else; the `T.x` registers
keep the bits they had. -/
def rejectResponse (e : ErrCode) (s : State) : State := raiseError e (setTvalid false s)

/-- The ending of an accepted response (R90). -/
def acceptResponse (t : Telemetry) (s : State) : State := succeed (setTvalid true { s with telemetry := t })

/-- The second half of DEC.RESP: the record from `IBUF[2..16]`. `IBUF[0]`, `IBUF[17]` and `IBUF[18]` are never read
(R93, R94, R118; log entry 12). -/
def unpackResponse (s : State) : Host.Outcome State Fault Refusal :=
  match (memRead .ibuf 2 15 s).bind unpackFields with
  | some t => .next (acceptResponse t s)
  | none => .fault (.unreadable .ibuf)

/-- DEC.RESP (R90): the length is tested first and alone, then byte 1 (R91), then the fields are unpacked. -/
def execDecResp (s : State) : Host.Outcome State Fault Refusal :=
  if s.ilen ≠ config.respLen then .next (rejectResponse .badLength s)
  else
    match memRead .ibuf 1 1 s with
    | some [fn] => if fn ≠ config.fnExpect then .next (rejectResponse .badFunction s) else unpackResponse s
    | _ => .fault (.unreadable .ibuf)

end Sys2Proof.Machine
end

