-- ==== Sys2Proof/Machine/FrameEncode.lean ====
section
/-! DEFINITION. Building command frames: ENC.ENABLE, ENC.MOVE, ENC.FRAME (spec/41_frame_encode.md R81 to R83). -/

namespace Sys2Proof.Machine

/-- ENC.ENABLE (R81): the fixed 7-byte body, framed. Reads no state. -/
def execEncEnable (s : State) : Host.Outcome State Fault Refusal := emitFrame enableBody s

/-- ENC.MOVE (R82): the move frame for the position in `OPA`. -/
def execEncMove (s : State) : Host.Outcome State Fault Refusal := emitFrame (moveBody s.opa) s

/-- ENC.FRAME (R83): the general frame of the body in `IBUF`; a body under `BODY_MIN` bytes is BadOperand. -/
def execEncFrame (s : State) : Host.Outcome State Fault Refusal :=
  if s.ilen < config.bodyMin then .next (raiseError .badOperand s)
  else
    match memRead .ibuf 0 s.ilen s with
    | some body => emitFrame body s
    | none => .fault (.unreadable .ibuf)

end Sys2Proof.Machine
end

