-- ==== Sys2Proof/Machine/PidPack.lean ====
section
/-! DEFINITION. Packing a PID gain into two register values: PACK.F32 (spec/44_pid_pack.md R105), and the actuator
registers the values go to (R106), which the block holds as constants and does nothing with. -/

namespace Sys2Proof.Machine

/-- PACK.F32 (R105): `(W0, W1) <- f32_words(OPA)`. Every pattern is accepted; no floating-point is done (R107). -/
def execPackF32 (s : State) : Host.Outcome State Fault Refusal :=
  .next (succeed { s with w0 := (f32Words s.opa).1, w1 := (f32Words s.opa).2 })

/-- The three PID gains. -/
inductive Gain where
  | kp
  | ki
  | kd
  deriving DecidableEq, Repr

/-- A gain's register address in the actuator (R5, R106). -/
def Gain.address : Gain → Nat
  | .kp => config.pidRegKp
  | .ki => config.pidRegKi
  | .kd => config.pidRegKd

/-- The actuator registers that `W0` and `W1` go to (R106, decision D22): `W0` to the gain's address, `W1` to the
address above it. -/
def Gain.registers (g : Gain) : Nat × Nat := (g.address, g.address + 1)

end Sys2Proof.Machine
end

