-- ==== Sys2Proof/Machine/Wire.lean ====
section
/-! DEFINITION. The three `WIRE.` rows of the opcode table. spec/30_encoding.md, opening: "The `WIRE.` rows are
layouts, not operations: they have no operation code." R9 and R50 select an operation by a 40-bit operation word and
by nothing else, and R52 lists the eleven: the spec gives these rows no effect, so each is refused by name (log entry
1). What the rows do say, the layouts, is in Decode.lean; that ENC.ENABLE and ENC.MOVE build them and DEC.RESP takes
one apart is stated in Certificates/Slice0/Obligations.lean. -/

namespace Sys2Proof.Machine

/-- A layout offered as if it were an operation. -/
def refuseLayout (mnemonic : String) : Host.Outcome State Fault Refusal := .refused (.layoutNotOperation mnemonic)

/-- WIRE.ENABLE (R55): the layout ENC.ENABLE builds; no operation. -/
def execWireEnable (_s : State) : Host.Outcome State Fault Refusal := refuseLayout "WIRE.ENABLE"

/-- WIRE.MOVE (R56): the layout ENC.MOVE builds; no operation. -/
def execWireMove (_s : State) : Host.Outcome State Fault Refusal := refuseLayout "WIRE.MOVE"

/-- WIRE.RESPONSE (R57): the layout DEC.RESP takes apart; no operation. -/
def execWireResponse (_s : State) : Host.Outcome State Fault Refusal := refuseLayout "WIRE.RESPONSE"

end Sys2Proof.Machine
end

