-- ==== Sys2Proof/Machine/Dispatch.lean ====
section
/-! DEFINITION. One arm per constructor of Instr, each one direct call of its meaning. -/

namespace Sys2Proof.Machine

def exec (i : Instr) (s : State) : Host.Outcome State Fault Refusal :=
  match i with
  -- the CRC unit (spec/40_crc.md)
  | .crcInit => Sys2Proof.Machine.execCrcInit s
  | .crcByte b => Sys2Proof.Machine.execCrcByte b s
  | .crcBuf => Sys2Proof.Machine.execCrcBuf s
  -- frame building (spec/41_frame_encode.md)
  | .encEnable => Sys2Proof.Machine.execEncEnable s
  | .encMove => Sys2Proof.Machine.execEncMove s
  | .encFrame => Sys2Proof.Machine.execEncFrame s
  -- frame decoding (spec/42_frame_decode.md)
  | .decResp => Sys2Proof.Machine.execDecResp s
  -- packing (spec/44_pid_pack.md)
  | .packF32 => Sys2Proof.Machine.execPackF32 s
  -- buffer and operand loading (spec/45_buffer_operand.md)
  | .ibClr => Sys2Proof.Machine.execIbClr s
  | .ibPush b => Sys2Proof.Machine.execIbPush b s
  | .setOpa w => Sys2Proof.Machine.execSetOpa w s
  -- the table's wire layouts, which are no operations (spec/30_encoding.md, opening)
  | .wireEnable => Sys2Proof.Machine.execWireEnable s
  | .wireMove _ _ => Sys2Proof.Machine.execWireMove s
  | .wireResponse _ _ _ _ _ _ _ _ => Sys2Proof.Machine.execWireResponse s

end Sys2Proof.Machine
end

