-- ==== Sys2Proof/Machine/Step.lean ====
section
/-! DEFINITION. One step (spec/00_scope.md R9): the block takes what the host does next. With nothing presented "the
block is idle between operations and holds all its state" (spec/60_exceptions.md R133). -/

namespace Sys2Proof.Machine

/-- One step: idle, a reset event, or the one operation that was presented. -/
def step (s : State) : Host.Outcome State Fault Refusal :=
  match takeEvent s with
  | none => .next s
  | some (.reset, s') => .next (applyReset s')
  | some (.present e, s') =>
    match decode e with
    | .ok i => exec i s'
    | .error _ => rejectPresented e s'

/-- The state in which the host presents a row's number next. -/
def State.withFetchWord (s : State) (nbits w : Nat) : State := presentFirst (tableEncoding nbits w) s

end Sys2Proof.Machine
end

