-- ==== Sys2Proof/Machine/Program.lean ====
section
/-! DEFINITION. Sequences of operations: running a list of them (spec/00_scope.md R9: folding the step over the
list; spec/70_reset_and_hazards.md R152: the run ends when the list is used up), the four pseudo-operations of
spec/30_encoding.md R66 and the source's functions as sequences (R67). -/

namespace Sys2Proof.Machine

/-- The operations of a list in order, from a start state, up to the first that stops (R9, R152). -/
def execAll : List Instr → State → Host.Outcome State Fault Refusal
  | [], s => .next s
  | i :: is, s =>
    match exec i s with
    | .next t => execAll is t
    | .fault f => .fault f
    | .refused r => .refused r

/-- `IB.LOAD b0 b1 … bk` (R66): with no bytes it is IB.CLR alone. -/
def ibLoad (data : List Byte) : List Instr := .ibClr :: data.map .ibPush

/-- `CRC.OF b0 b1 … bk` (R66). -/
def crcOf (data : List Byte) : List Instr := .crcInit :: data.map .crcByte

/-- `MOVE.TO v` (R66), for the pattern of `v`. -/
def moveTo (w : Word) : List Instr := [.setOpa w, .encMove]

/-- `PACK.GAIN w` (R66). -/
def packGain (w : Word) : List Instr := [.setOpa w, .packF32]

/-- `CRC16Engine.compute(data)` (R67) through the input buffer; `crcOf data` is the other way. -/
def compute (data : List Byte) : List Instr := ibLoad data ++ [.crcBuf]

/-- `FrameCodec.encode_enable()` (R67). -/
def encodeEnable : List Instr := [.encEnable]

/-- `FrameCodec.encode_move(position_um)` (R67). -/
def encodeMove (positionUm : Int) : List Instr := moveTo (pattern positionUm)

/-- `FrameCodec.decode_response(bytes)` (R67). -/
def decodeResponse (bytes : List Byte) : List Instr := ibLoad bytes ++ [.decResp]

/-- The packing step of `ActuatorSession.configure_pid(gains)` for one gain's pattern (R67). -/
def configurePidPacking (w : Word) : List Instr := packGain w

/-- What the host presents to have a list of operations run (R20: one word at a time, in order). -/
def presentAll (is : List Instr) : List HostEvent := is.map fun i => .present (encode i)

end Sys2Proof.Machine
end

