-- ==== Sys2Proof/Machine/Assembler.lean ====
section
/-! DEFINITION. The assembler notation of spec/30_encoding.md R65 and R66: one operation per line, a mnemonic and
then its immediates, in decimal or, with `0x`, in hexadecimal, a `;` starting a comment; a byte list after IB.LOAD or
CRC.OF in the two-digit groups of spec/00_scope.md R7. A line assembles to the
operations it stands for; `encode` gives their words. Host software, not state of the block
(log entry 14 for what R65 leaves open). -/

namespace Sys2Proof.Machine

/-- Why a line does not assemble. -/
inductive AsmError where
  | unknownMnemonic
  | wrongOperands
  deriving DecidableEq, Repr

/-- A line up to its comment (R65). -/
def stripComment : List Char → List Char
  | [] => []
  | c :: cs => if c = ';' then [] else c :: stripComment cs

/-- The blank-separated parts of a line. -/
def tokens : List Char → List (List Char)
  | [] => []
  | c :: cs =>
    if c = ' ' ∨ c = '\t' then [] :: tokens cs
    else
      match tokens cs with
      | [] => [[c]]
      | t :: ts => (c :: t) :: ts

/-- The digit a character stands for in a base, if it is one. -/
def digitOf (base : Nat) (c : Char) : Option Nat :=
  let d :=
    if '0' ≤ c ∧ c ≤ '9' then some (c.toNat - '0'.toNat)
    else if 'a' ≤ c ∧ c ≤ 'f' then some (c.toNat - 'a'.toNat + 10)
    else if 'A' ≤ c ∧ c ≤ 'F' then some (c.toNat - 'A'.toNat + 10)
    else none
  d.filter (· < base)

/-- A run of digits read on from a value. -/
def readDigits (base : Nat) : Nat → List Char → Option Nat
  | acc, [] => some acc
  | acc, c :: cs => (digitOf base c).bind fun d => readDigits base (acc * base + d) cs

/-- An unsigned number, in decimal or, with `0x`, in hexadecimal (R65). -/
def readUnsigned : List Char → Option Nat
  | [] => none
  | ['0', 'x'] => none
  | '0' :: 'x' :: cs => readDigits 16 0 cs
  | cs => readDigits 10 0 cs

/-- A number with an optional minus sign (R65). -/
def readSigned : List Char → Option Int
  | '-' :: cs => (readUnsigned cs).map fun n => -(n : Int)
  | cs => (readUnsigned cs).map fun n => (n : Int)

/-- A format B immediate: 0 to 255 (R65). -/
def readByteImm (cs : List Char) : Option Byte :=
  (readUnsigned cs).bind fun n => if n ≤ 255 then some (BitVec.ofNat 8 n) else none

/-- A format W immediate: 0 to 4294967295, or -2147483648 to -1 assembled as `pattern(s)` (R65). -/
def readWordImm (cs : List Char) : Option Word :=
  (readSigned cs).bind fun v => if -2147483648 ≤ v ∧ v ≤ 4294967295 then some (pattern v) else none

/-- One byte of the byte list that IB.LOAD and CRC.OF take (R66). A group of exactly two digits is hexadecimal
(spec/00_scope.md R7: "a run of two-digit groups such as `01 64 1E` is a byte sequence in hexadecimal"), as the lines of
V21 to V26 are written; any other group is a format B immediate of R65. R66 does not say which of the two readings its
`b0 b1 … bk` takes: that the two-digit one comes first is the model's choice (log entry 14). -/
def readListedByte : List Char → Option Byte
  | [hi, lo] => (readDigits 16 0 [hi, lo]).map (BitVec.ofNat 8)
  | cs => readByteImm cs

/-- Every group of a byte list read as a byte (log entry 14). -/
def readBytesImm : List (List Char) → Option (List Byte)
  | [] => some []
  | t :: ts => (readListedByte t).bind fun b => (readBytesImm ts).map fun bs => b :: bs

/-- A format N operation takes no immediate (R65). -/
def asmN (i : Instr) (args : List (List Char)) : Except AsmError (List Instr) :=
  if args = [] then .ok [i] else .error .wrongOperands

/-- Operands that were read, or the error of operands that were not. -/
def asmOperands (r : Option (List Instr)) : Except AsmError (List Instr) :=
  match r with
  | some is => .ok is
  | none => .error .wrongOperands

/-- An operation or pseudo-operation with one byte operand. -/
def asmB (f : Byte → List Instr) : List (List Char) → Except AsmError (List Instr)
  | [t] => asmOperands ((readByteImm t).map f)
  | _ => .error .wrongOperands

/-- An operation or pseudo-operation with one 32-bit operand. -/
def asmW (f : Word → List Instr) : List (List Char) → Except AsmError (List Instr)
  | [t] => asmOperands ((readWordImm t).map f)
  | _ => .error .wrongOperands

/-- A mnemonic and its operands: the eleven of R52, then the four pseudo-operations of R66. -/
def asmOperation (m : String) (args : List (List Char)) : Except AsmError (List Instr) :=
  if m = "CRC.INIT" then asmN .crcInit args
  else if m = "CRC.BYTE" then asmB (fun b => [.crcByte b]) args
  else if m = "CRC.BUF" then asmN .crcBuf args
  else if m = "ENC.ENABLE" then asmN .encEnable args
  else if m = "ENC.MOVE" then asmN .encMove args
  else if m = "ENC.FRAME" then asmN .encFrame args
  else if m = "DEC.RESP" then asmN .decResp args
  else if m = "PACK.F32" then asmN .packF32 args
  else if m = "IB.CLR" then asmN .ibClr args
  else if m = "IB.PUSH" then asmB (fun b => [.ibPush b]) args
  else if m = "SET.OPA" then asmW (fun w => [.setOpa w]) args
  else if m = "IB.LOAD" then asmOperands ((readBytesImm args).map ibLoad)
  else if m = "CRC.OF" then asmOperands ((readBytesImm args).map crcOf)
  else if m = "MOVE.TO" then asmW moveTo args
  else if m = "PACK.GAIN" then asmW packGain args
  else .error .unknownMnemonic

/-- A line of assembly (R65): a blank or comment line stands for no operation. -/
def assembleLine (line : List Char) : Except AsmError (List Instr) :=
  match (tokens (stripComment line)).filter (· ≠ []) with
  | [] => .ok []
  | m :: args => asmOperation (String.ofList m) args

end Sys2Proof.Machine
end

