-- ==== Sys2Proof/Machine/CrcReference.lean ====
section
/-! DEFINITION. A second, independent design of the same checksum, for one claim to compare the CRC unit with
(spec/40_crc.md R73: "a most-significant-bit-first implementation of CRC-16/MODBUS"; spec/00_scope.md R2: polynomial
0x8005, initial value 0xFFFF, input and output reflected, no final XOR; spec/90_conflicts.md C9). No operation uses
it (log entry 16). -/

namespace Sys2Proof.Machine

/-- One round, most significant bit first. -/
def refRound (a : Half) : Half := if a.getLsbD 15 then (a <<< 1) ^^^ 0x8005 else a <<< 1

/-- One byte: reflected into the high byte, then eight rounds. -/
def refByte (a : Half) (b : Byte) : Half :=
  refRound (refRound (refRound (refRound (refRound (refRound (refRound (refRound
    (a ^^^ (b.reverse ++ (0 : Byte) : Half)))))))))

/-- The checksum of a byte sequence: the reflected final accumulator. -/
def refCrc (data : List Byte) : Half := (data.foldl refByte 0xFFFF).reverse

end Sys2Proof.Machine
end

