-- ==== Sys2Proof/Machine/HostRead.lean ====
section
/-! DEFINITION. What the host can read between operations, with no side effect (spec/10_state.md R24,
spec/70_reset_and_hazards.md R145): a function of the state, not a step (log entry 7). The two reads the spec forbids are refused
by name: a `T.x` register while `TVALID` is 0 (R24, S1, S2) and a buffer byte at or beyond its length (R44, S3). -/

namespace Sys2Proof.Machine

/-- The items of R24. `OPA` holds a pattern and signedness is a matter of the reader (spec/10_state.md R12), so the host
has two readings of it: `opa`, the 32 bits, and `opaSigned`, the two's complement value that
spec/46_laws_and_absent_families.md R115 names ("the host's reading of `OPA`"). -/
inductive HostItem where
  | acc
  | opa
  | opaSigned
  | w0
  | w1
  | err
  | tvalid
  | ilen
  | olen
  | byte (sp : Space) (index : Nat)
  | tPos
  | tForce
  | tPower
  | tTemp
  | tVolt
  | tErr
  deriving DecidableEq, Repr

/-- A value read, in the type R10 gives the item. -/
inductive HostValue where
  | u8 (v : Byte)
  | u16 (v : Half)
  | bits32 (v : Word)
  | s32 (v : Int)
  | code (v : BitVec 3)
  | flag (v : Bool)
  | count (n : Nat)
  deriving DecidableEq, Repr

/-- A read of the telemetry record, guarded by `TVALID` (R24). -/
def readTelemetry (f : Telemetry → HostValue) (s : State) : Except Refusal HostValue :=
  if s.tvalid then .ok (f s.telemetry) else .error .telemetryNotValid

/-- A read of one buffer byte, guarded by the buffer's length (R44). -/
def readByte (sp : Space) (index : Nat) (s : State) : Except Refusal HostValue :=
  match memRead sp index 1 s with
  | some [b] => .ok (.u8 b)
  | _ => .error (.beyondLength sp index)

/-- The host's read of one item (R24). -/
def hostRead : HostItem → State → Except Refusal HostValue
  | .acc, s => .ok (.u16 s.acc)
  | .opa, s => .ok (.bits32 s.opa)
  | .opaSigned, s => .ok (.s32 (signed s.opa))
  | .w0, s => .ok (.u16 s.w0)
  | .w1, s => .ok (.u16 s.w1)
  | .err, s => .ok (.code s.err.code)
  | .tvalid, s => .ok (.flag s.tvalid)
  | .ilen, s => .ok (.count s.ilen)
  | .olen, s => .ok (.count s.olen)
  | .byte sp index, s => readByte sp index s
  | .tPos, s => readTelemetry (fun t => .s32 (signed t.pos)) s
  | .tForce, s => readTelemetry (fun t => .s32 (signed t.force)) s
  | .tPower, s => readTelemetry (fun t => .u16 t.power) s
  | .tTemp, s => readTelemetry (fun t => .u8 t.temp) s
  | .tVolt, s => readTelemetry (fun t => .u16 t.volt) s
  | .tErr, s => readTelemetry (fun t => .u16 t.err) s

end Sys2Proof.Machine
end

