-- ==== Sys2Proof/Safety.lean ====
section
/-! DEFINITION. What a sound state of the block is (spec/10_state.md R28 and the guards of R24, R44), when two states
look alike to whoever obeys the guards, and what the claims say about outcomes. -/

namespace Sys2Proof.Machine

/-- Every index below `n` has been written. -/
def Memory.filled (m : Memory) (n : Nat) : Prop := ∀ a, a < n → (Memory.read m a).isSome = true

/-- Every written index is below `n`. -/
def Memory.within (m : Memory) (n : Nat) : Prop := ∀ a, n ≤ a → Memory.read m a = none

/-- The lengths R28 allows `OLEN`: 0, or 9, or between `BODY_MIN + 2` and `IBUF_MAX + 2`. -/
def olenLegal (n : Nat) : Prop := n = 0 ∨ n = 9 ∨ (config.bodyMin + 2 ≤ n ∧ n ≤ config.ibufMax + 2)

/-- The invariant of the block: R28's bounds on the two lengths, both buffers in canonical form, within their
capacity and written up to their length, so that every read the operations make is defined (R44). R28's clause on
`TVALID` speaks of earlier operations; it is a statement about steps, not about one state. -/
structure State.Inv (s : State) : Prop where
  ilenBound : s.ilen ≤ config.ibufMax
  olenShape : olenLegal s.olen
  ibufWf : Memory.wf s.ibuf
  obufWf : Memory.wf s.obuf
  ibufWithin : Memory.within s.ibuf config.ibufMax
  obufWithin : Memory.within s.obuf config.obufMax
  ibufFilled : Memory.filled s.ibuf s.ilen
  obufFilled : Memory.filled s.obuf s.olen

/-- `IBUF[0..ILEN-1]` is the byte sequence `data`: what CRC.BUF, ENC.FRAME and DEC.RESP need of a state. Every state
that meets the invariant has such a `data`. -/
structure State.inputIs (s : State) (data : List Byte) : Prop where
  bound : s.ilen ≤ config.ibufMax
  length : data.length = s.ilen
  bytes : ∀ i, i < s.ilen → Memory.read s.ibuf i = data[i]?

/-- The host keeps to its interface (R145): what it presents are operation words. -/
def HostEvent.isWord : HostEvent → Prop
  | .present (.word _) => True
  | .present (.frame _) => False
  | .reset => True

/-- The two buffers agree on the indices below `n`. -/
def Memory.agreeBelow (m k : Memory) (n : Nat) : Prop := ∀ a, a < n → Memory.read m a = Memory.read k a

/-- Two states are alike in all that R24 lets a host see: every register, the telemetry where `TVALID` is 1, each
buffer below its length; and the host is about to do the same. -/
structure State.Alike (s t : State) : Prop where
  acc : s.acc = t.acc
  opa : s.opa = t.opa
  w0 : s.w0 = t.w0
  w1 : s.w1 = t.w1
  err : s.err = t.err
  tvalid : s.tvalid = t.tvalid
  telemetry : s.tvalid = true → s.telemetry = t.telemetry
  ilen : s.ilen = t.ilen
  olen : s.olen = t.olen
  ibuf : Memory.agreeBelow s.ibuf t.ibuf s.ilen
  obuf : Memory.agreeBelow s.obuf t.obuf s.olen
  inbox : s.inbox = t.inbox

/-- Two outcomes agree: both go on, to states related by `R`, or both stop for the same reason. -/
def outcomesAgree (R : State → State → Prop) : Host.Outcome State Fault Refusal → Host.Outcome State Fault Refusal → Prop
  | .next s, .next t => R s t
  | .fault f, .fault g => f = g
  | .refused q, .refused r => q = r
  | _, _ => False

/-- An outcome with a function applied to its next state. -/
def mapOutcome (f : State → State) : Host.Outcome State Fault Refusal → Host.Outcome State Fault Refusal
  | .next s => .next (f s)
  | .fault x => .fault x
  | .refused x => .refused x

/-- The next state of an outcome that has one. -/
def nextState : Host.Outcome State Fault Refusal → Option State
  | .next s => some s
  | .fault _ => none
  | .refused _ => none

/-- A step in which the host presents a word that names no operation: IllegalOp, and nothing else (R53). -/
def endsIllegal (w : OpWord) : Prop :=
  ∀ (s : State) (rest : List HostEvent), s.inbox = .present (.word w) :: rest →
    step s = .next { s with inbox := rest, err := .illegalOp }

/-- The "Encoding" and "Errors" lines of a format N operation's rule: `m` is its one word, and any other word with its
code ends with IllegalOp. -/
def hasWordN (i : Instr) (m : OpWord) : Prop :=
  encode i = .word m ∧ decodeWord m = .ok i ∧
  ∀ w : OpWord, w.extractLsb' 32 8 = m.extractLsb' 32 8 → w.extractLsb' 0 32 ≠ 0 → endsIllegal w

/-- The same of a format B operation: `m` with its byte in the low bits. -/
def hasWordB (i : Byte → Instr) (m : OpWord) : Prop :=
  (∀ b : Byte, encode (i b) = .word (m ||| b.setWidth 40) ∧ decodeWord (m ||| b.setWidth 40) = .ok (i b)) ∧
  ∀ w : OpWord, w.extractLsb' 32 8 = m.extractLsb' 32 8 → w.extractLsb' 8 24 ≠ 0 → endsIllegal w

/-- The same of a format W operation: every word with its code is one. -/
def hasWordW (i : Word → Instr) (m : OpWord) : Prop :=
  (∀ v : Word, encode (i v) = .word (m ||| v.setWidth 40)) ∧
  ∀ w : OpWord, w.extractLsb' 32 8 = m.extractLsb' 32 8 → decodeWord w = .ok (i (w.extractLsb' 0 32))

end Sys2Proof.Machine
end

