-- ==== Sys2Proof/Certificates/Slice0/Obligations.lean ====
section
/-! DEFINITION. The statements about the block, each from the numbered rules of spec/. An equation
`exec i s = .next { s with … }` says the instruction completes, what it writes, and that every other piece of state,
the buffers and what the host presents next included, is as before. Nothing rests on the model's own values: the
telemetry registers after reset (log entry 5) and the bytes the buffers never held (log entry 4) are in no clause. -/

open Sys2Proof Sys2Proof.Machine

/-! ### Constants, and the CRC functions -/

/-- R5, R6: the source's constants have the values the spec lists, and the parameters meet their constraints. -/
def Obligations.ConstantsAreTheSpecs : Prop :=
  config.addr = 0x01 ∧ config.cmd = 0x64 ∧ config.subEnable = 0x10 ∧
  config.enablePayload = [0x00, 0x00, 0x00, 0x01] ∧ config.subMove = 0x1E ∧ config.respLen = 19 ∧
  config.fnExpect = 0x64 ∧ config.crcInit = 0xFFFF ∧ config.crcPoly = 0xA001 ∧ config.crcRounds = 8 ∧
  config.pidRegKp = 688 ∧ config.pidRegKi = 690 ∧ config.pidRegKd = 692 ∧
  config.ibufMax = 32 ∧ config.obufMax = 34 ∧ config.bodyMin = 3 ∧ config.legal

/-- R70: the low bit is tested before a logical shift, the constant is XORed in when it was 1, and bit 15 of the
result is the bit shifted out. -/
def Obligations.CrcRoundTestsBeforeShifting : Prop :=
  ∀ a : Half,
    crcRound a = (if a.getLsbD 0 then (a >>> 1) ^^^ 0xA001 else a >>> 1) ∧
    (a >>> 1).getLsbD 15 = false ∧ (crcRound a).getLsbD 15 = a.getLsbD 0

/-- R71: the byte is XORed into the low byte, the high byte is unchanged by that, then exactly eight rounds. -/
def Obligations.CrcByteIsXorThenEightRounds : Prop :=
  ∀ (a : Half) (b : Byte), ∃ a0 : Half,
    a0 = a ^^^ b.setWidth 16 ∧
    a0.extractLsb' 8 8 = a.extractLsb' 8 8 ∧ a0.extractLsb' 0 8 = a.extractLsb' 0 8 ^^^ b ∧
    crcByte a b = crcRound (crcRound (crcRound (crcRound (crcRound (crcRound (crcRound (crcRound a0)))))))

/-- R72: the left fold of the byte step, from 0xFFFF for `crc16`, with nothing done at the end. -/
def Obligations.CrcIsLeftFoldFromFFFF : Prop :=
  ∀ data : List Byte,
    crc16 data = data.foldl crcByte 0xFFFF ∧ ∀ a : Half, crcFold a data = data.foldl crcByte a

/-- R73, the concatenation law and the empty law. -/
def Obligations.CrcFoldOverConcatenation : Prop :=
  (∀ (a : Half) (x y : List Byte), crcFold a (x ++ y) = crcFold (crcFold a x) y) ∧
  (∀ x y : List Byte, crc16 (x ++ y) = crcFold (crc16 x) y) ∧ crc16 [] = 0xFFFF

/-- R77: the CRC of a byte sequence followed by its own CRC, low byte first, is zero; and why. -/
def Obligations.CrcResidueIsZero : Prop :=
  (∀ x : List Byte, crc16 (x ++ le16Pack (crc16 x)) = 0) ∧
  ∀ c : Half, crcByte c (byteOf c 0) = (byteOf c 1).setWidth 16 ∧ crcByte ((byteOf c 1).setWidth 16) (byteOf c 1) = 0

/-- R73: the result depends on every byte. Changing any one byte, whatever stands around it, changes the CRC. -/
def Obligations.CrcChangesWithAnyOneByte : Prop :=
  ∀ (x y : List Byte) (b b' : Byte), b ≠ b' → crc16 (x ++ b :: y) ≠ crc16 (x ++ b' :: y)

/-- R2, R73, C9: the right-shifting unit with 0xA001 computes the same checksum as the catalogue's
most-significant-bit-first design with 0x8005 and reflected input and output. That design is the model's, from general
knowledge (log entry 16, PRESUMED). -/
def Obligations.CrcEqualsMsbFirstReference : Prop := ∀ data : List Byte, crc16 data = refCrc data

/-! ### Byte order -/

/-- R58, R59: the four bytes of a pattern, most significant first; their signed reading; and that it inverts the
packing on every `s32`. -/
def Obligations.BigEndian32RoundTrip : Prop :=
  (∀ w : Word, be32Pack w =
    [w.extractLsb' 24 8, w.extractLsb' 16 8, w.extractLsb' 8 8, w.extractLsb' 0 8]) ∧
  (∀ b0 b1 b2 b3 : Byte, be32UnpackS b0 b1 b2 b3 =
    (b0.toNat * 16777216 + b1.toNat * 65536 + b2.toNat * 256 + b3.toNat : Int) -
      (if b0.getLsbD 7 then 4294967296 else 0)) ∧
  ∀ v : Int, -2147483648 ≤ v → v ≤ 2147483647 →
    ∃ b0 b1 b2 b3 : Byte, be32Pack (pattern v) = [b0, b1, b2, b3] ∧ be32UnpackS b0 b1 b2 b3 = v

/-- R60, R61: the unsigned 16-bit reading, and the CRC's two bytes, low byte first. -/
def Obligations.SixteenBitFieldOrder : Prop :=
  (∀ b0 b1 : Byte, (be16Unpack b0 b1).toNat = b0.toNat * 256 + b1.toNat) ∧
  ∀ c : Half, le16Pack c = [c.extractLsb' 0 8, c.extractLsb' 8 8]

/-- R62: each half of the pattern has its two bytes swapped and the less significant half comes first; together the
two values are the pattern with its four bytes reversed. -/
def Obligations.F32WordsReverseTheBytes : Prop :=
  ∀ w : Word,
    (f32Words w).1 = w.extractLsb' 0 8 ++ w.extractLsb' 8 8 ∧
    (f32Words w).2 = w.extractLsb' 16 8 ++ w.extractLsb' 24 8 ∧
    be32Pack ((f32Words w).1 ++ (f32Words w).2 : Word) = (be32Pack w).reverse ∧
    f32Words ((f32Words w).1 ++ (f32Words w).2 : Word) = (w.extractLsb' 16 16, w.extractLsb' 0 16)

/-! ### What each instruction does, and that it completes -/

/-- R74, its word and its IllegalOp case with it; so in each of the next statements. -/
def Obligations.CrcInitSetsAccToFFFF : Prop :=
  hasWordN .crcInit 0x0100000000 ∧
  ∀ s : State, exec .crcInit s = .next { s with acc := 0xFFFF, err := .none }

/-- R75. -/
def Obligations.CrcByteFeedsOneByte : Prop :=
  hasWordB .crcByte 0x0200000000 ∧
  ∀ (b : Byte) (s : State), exec (.crcByte b) s = .next { s with acc := crcByte s.acc b, err := .none }

/-- R76: `ACC` takes the CRC of the input bytes whatever it held; an empty buffer gives 0xFFFF. -/
def Obligations.CrcBufSumsTheInput : Prop :=
  hasWordN .crcBuf 0x0300000000 ∧
  ∀ (s : State) (data : List Byte), s.inputIs data →
    exec .crcBuf s = .next { s with acc := crc16 data, err := .none } ∧
    (s.ilen = 0 → exec .crcBuf s = .next { s with acc := 0xFFFF, err := .none })

/-- R81: the nine bytes of the enable frame at index 0 of `OBUF`, from any state. -/
def Obligations.EncEnableBuildsTheEnableFrame : Prop :=
  hasWordN .encEnable 0x1000000000 ∧
  ∀ s : State, exec .encEnable s = .next { s with
    obuf := Memory.writeBytes s.obuf 0 [0x01, 0x64, 0x10, 0x00, 0x00, 0x00, 0x01, 0x03, 0xE7]
    olen := 9, acc := 0xE703, err := .none }

/-- R82: the move frame of `OPA`, for every pattern `OPA` can hold. -/
def Obligations.EncMoveBuildsTheMoveFrame : Prop :=
  hasWordN .encMove 0x1100000000 ∧
  ∀ s : State, ∃ body : List Byte, ∃ c : Half,
    body = [0x01, 0x64, 0x1E] ++ be32Pack s.opa ∧ c = crc16 body ∧
    exec .encMove s = .next { s with
      obuf := Memory.writeBytes s.obuf 0 (body ++ [c.extractLsb' 0 8, c.extractLsb' 8 8])
      olen := 9, acc := c, err := .none }

/-- R83, R80: a body under three bytes is BadOperand; any longer body is framed whole. -/
def Obligations.EncFrameBuildsTheGeneralFrame : Prop :=
  hasWordN .encFrame 0x1200000000 ∧
  (∀ s : State, s.ilen < 3 → exec .encFrame s = .next { s with err := .badOperand }) ∧
  ∀ (s : State) (body : List Byte), s.inputIs body → 3 ≤ s.ilen →
    exec .encFrame s = .next { s with
      obuf := Memory.writeBytes s.obuf 0 (body ++ le16Pack (crc16 body))
      olen := s.ilen + 2, acc := crc16 body, err := .none }

/-- R83, the corner cases: on a move body ENC.FRAME leaves what ENC.MOVE leaves with the body's position in `OPA`,
and on the enable body what ENC.ENABLE does. -/
def Obligations.EncFrameAgreesWithMoveAndEnable : Prop :=
  (∀ (s : State) (w : Word), s.inputIs ([0x01, 0x64, 0x1E] ++ be32Pack w) →
    mapOutcome (fun t => { t with opa := w }) (exec .encFrame s) = exec .encMove { s with opa := w }) ∧
  ∀ s : State, s.inputIs [0x01, 0x64, 0x10, 0x00, 0x00, 0x00, 0x01] → exec .encFrame s = exec .encEnable s

/-- R90, R91, R92: the length is tested first and alone; then byte 1; a failure writes `ERR` and `TVALID` and nothing
else; a success writes the whole record. -/
def Obligations.DecRespChecksThenUnpacks : Prop :=
  hasWordN .decResp 0x2000000000 ∧
  (∀ s : State, s.ilen ≠ 19 → exec .decResp s = .next { s with tvalid := false, err := .badLength }) ∧
  ∀ (s : State) (f : List Byte), s.inputIs f → s.ilen = 19 →
    (∀ fn : Byte, f[1]? = some fn → fn ≠ 0x64 →
      exec .decResp s = .next { s with tvalid := false, err := .badFunction }) ∧
    (f[1]? = some 0x64 → ∃ t : Telemetry, unpackTelemetry f = some t ∧
      exec .decResp s = .next { s with telemetry := t, tvalid := true, err := .none })

/-- R95 to R101: the six fields by their offsets, widths, order and signedness; not defined on another length. -/
def Obligations.UnpackReadsTheFixedFields : Prop :=
  (∀ b0 b1 b2 b3 b4 b5 b6 b7 b8 b9 b10 b11 b12 b13 b14 b15 b16 b17 b18 : Byte, ∃ t : Telemetry,
    unpackTelemetry [b0, b1, b2, b3, b4, b5, b6, b7, b8, b9, b10, b11, b12, b13, b14, b15, b16, b17, b18] = some t ∧
    signed t.pos = be32UnpackS b2 b3 b4 b5 ∧ signed t.force = be32UnpackS b6 b7 b8 b9 ∧
    t.power.toNat = b10.toNat * 256 + b11.toNat ∧ t.temp = b12 ∧
    t.volt.toNat = b13.toNat * 256 + b14.toNat ∧ t.err.toNat = b15.toNat * 256 + b16.toNat ∧
    t.err.getLsbD 15 = b15.getLsbD 7 ∧ t.err.getLsbD 0 = b16.getLsbD 0) ∧
  ∀ f : List Byte, f.length ≠ 19 → unpackTelemetry f = none

/-- R64: the two classes DEC.RESP rejects, and that it accepts everything else. -/
def Obligations.DecRespRejectsExactlyTwoClasses : Prop :=
  ∀ (s : State) (f : List Byte), s.inputIs f → ∃ t : State, exec .decResp s = .next t ∧
    (t.err = .badLength ↔ f.length ≠ 19) ∧
    (t.err = .badFunction ↔ f.length = 19 ∧ f[1]? ≠ some 0x64) ∧
    (t.err = .none ↔ f.length = 19 ∧ f[1]? = some 0x64) ∧ (t.tvalid = true ↔ t.err = .none)

/-- R93, R94: nothing DEC.RESP does depends on `IBUF[0]`, `IBUF[17]` or `IBUF[18]`, nor on `ACC`; whatever buffer
agrees on indices 1 to 16 gives the same result. -/
def Obligations.DecRespReadsOnlyBytes1To16 : Prop :=
  ∀ (s : State) (m : Memory) (a : Half),
    (∀ i, 1 ≤ i → i ≤ 16 → Memory.read m i = Memory.read s.ibuf i) →
    exec .decResp { s with ibuf := m, acc := a } =
      mapOutcome (fun t => { t with ibuf := m, acc := a }) (exec .decResp s)

/-- R105. -/
def Obligations.PackF32WritesBothWords : Prop :=
  hasWordN .packF32 0x3000000000 ∧
  ∀ s : State, exec .packF32 s = .next { s with
    w0 := s.opa.extractLsb' 0 8 ++ s.opa.extractLsb' 8 8
    w1 := s.opa.extractLsb' 16 8 ++ s.opa.extractLsb' 24 8, err := .none }

/-- R112. -/
def Obligations.SetOpaLoadsThePattern : Prop :=
  hasWordW .setOpa 0x4200000000 ∧
  ∀ (w : Word) (s : State), exec (.setOpa w) s = .next { s with opa := w, err := .none }

/-- R110: no byte of `IBUF` is erased. -/
def Obligations.IbClrEmptiesTheInput : Prop :=
  hasWordN .ibClr 0x4000000000 ∧
  ∀ s : State, exec .ibClr s = .next { s with ilen := 0, err := .none }

/-- R111: a full buffer drops the byte with BadOperand; with room the byte goes to index `ILEN` and is then part of
the input. -/
def Obligations.IbPushAppendsOneByte : Prop :=
  hasWordB .ibPush 0x4100000000 ∧
  (∀ (b : Byte) (s : State), s.ilen = config.ibufMax →
    exec (.ibPush b) s = .next { s with err := .badOperand }) ∧
  ∀ (b : Byte) (s : State), s.ilen < config.ibufMax →
    exec (.ibPush b) s = .next { s with
      ibuf := Memory.write s.ibuf s.ilen b, ilen := s.ilen + 1, err := .none } ∧
    ∀ data, s.inputIs data →
      State.inputIs { s with ibuf := Memory.write s.ibuf s.ilen b, ilen := s.ilen + 1, err := .none } (data ++ [b])

/-- R50, R52 and the opening of spec/30_encoding.md: the table's three wire layouts are no operations, and running
one is refused by name (log entry 1). -/
def Obligations.WireLayoutsAreRefused : Prop :=
  ∀ (s : State) (a : Byte) (p f : Word) (pw : Half) (tm : Byte) (v e c : Half),
    exec .wireEnable s = .refused (.layoutNotOperation "WIRE.ENABLE") ∧
    exec (.wireMove p c) s = .refused (.layoutNotOperation "WIRE.MOVE") ∧
    exec (.wireResponse a p f pw tm v e c) s = .refused (.layoutNotOperation "WIRE.RESPONSE")

/-! ### The wire layouts, and what builds and takes apart each -/

/-- R55, R56: what ENC.ENABLE and ENC.MOVE leave in `OBUF[0..8]` is byte for byte the layout of the table's rows
WIRE.ENABLE and WIRE.MOVE, the latter with the position of `OPA` and its right CRC. -/
def Obligations.BuiltFramesAreTheirLayouts : Prop :=
  ∀ s : State,
    (∃ t bytes, exec .encEnable s = .next t ∧ encode .wireEnable = .frame bytes ∧ t.olen = 9 ∧
      Memory.readBytes t.obuf 0 9 = some bytes) ∧
    ∃ t bytes crc, exec .encMove s = .next t ∧ encode (.wireMove s.opa crc) = .frame bytes ∧
      (Instr.wireMove s.opa crc).wellFormed = true ∧ t.acc = crc ∧ t.olen = 9 ∧
      Memory.readBytes t.obuf 0 9 = some bytes

/-- R57: DEC.RESP accepts exactly the layout of the row WIRE.RESPONSE, and puts each of its fields in the register
the layout names, and the address and the CRC nowhere. -/
def Obligations.ResponseLayoutGoesToTelemetry : Prop :=
  ∀ (s : State) (f : List Byte), s.inputIs f → ∃ t : State, exec .decResp s = .next t ∧
    (t.err = .none ↔ ∃ a p fo pw tm v e c, encode (.wireResponse a p fo pw tm v e c) = .frame f) ∧
    ∀ a p fo pw tm v e c, encode (.wireResponse a p fo pw tm v e c) = .frame f → t.telemetry = ⟨p, fo, pw, tm, v, e⟩

/-! ### Frames: what an instruction leaves unchanged -/

/-- The frame of the operations that store to no buffer: the three of the CRC unit change `ACC` and `ERR`; PACK.F32
`W0`, `W1` and `ERR`; SET.OPA `OPA` and `ERR`; IB.CLR `ILEN` and `ERR`; DEC.RESP the telemetry, `TVALID` and `ERR`.
Every other register, the inbox, and every byte of both buffers are as before. -/
def Obligations.RegisterOperationsFrame : Prop :=
  ∀ (i : Instr) (s t : State), exec i s = .next t →
    ((i = .crcInit ∨ (∃ b, i = .crcByte b) ∨ i = .crcBuf) → t = { s with acc := t.acc, err := t.err }) ∧
    (i = .packF32 → t = { s with w0 := t.w0, w1 := t.w1, err := t.err }) ∧
    ((∃ w, i = .setOpa w) → t = { s with opa := t.opa, err := t.err }) ∧
    (i = .ibClr → t = { s with ilen := t.ilen, err := t.err }) ∧
    (i = .decResp → t = { s with telemetry := t.telemetry, tvalid := t.tvalid, err := t.err }) ∧
    ((i = .crcInit ∨ (∃ b, i = .crcByte b) ∨ i = .crcBuf ∨ i = .packF32 ∨ (∃ w, i = .setOpa w) ∨ i = .ibClr ∨
      i = .decResp) →
      ∀ a, Memory.read t.ibuf a = Memory.read s.ibuf a ∧ Memory.read t.obuf a = Memory.read s.obuf a)

/-- The frame of the operations that store: the ENC operations change `ACC`, `OLEN`, `ERR` and the bytes of the frame
from index 0 of `OBUF`, 9 of them or `ILEN + 2`; an ENC.FRAME that fails stores nothing; IB.PUSH changes `ILEN`, `ERR`
and the byte at index `ILEN` of `IBUF`, and nothing of it where the buffer is full. -/
def Obligations.StoringOperationsFrame : Prop :=
  ∀ (i : Instr) (s t : State), exec i s = .next t →
    ((i = .encEnable ∨ i = .encMove) →
      t = { s with acc := t.acc, olen := t.olen, obuf := t.obuf, err := t.err } ∧
      ∀ a, ¬(0 ≤ a ∧ a < 0 + 9) → Memory.read t.obuf a = Memory.read s.obuf a) ∧
    (i = .encFrame →
      t = { s with acc := t.acc, olen := t.olen, obuf := t.obuf, err := t.err } ∧
      (∀ a, ¬(0 ≤ a ∧ a < 0 + (s.ilen + 2)) → Memory.read t.obuf a = Memory.read s.obuf a) ∧
      (s.ilen < 3 → ∀ a, Memory.read t.obuf a = Memory.read s.obuf a)) ∧
    ((∃ b, i = .ibPush b) →
      t = { s with ilen := t.ilen, ibuf := t.ibuf, err := t.err } ∧
      (∀ a, ¬(s.ilen ≤ a ∧ a < s.ilen + 1) → Memory.read t.ibuf a = Memory.read s.ibuf a) ∧
      (s.ilen = config.ibufMax → ∀ a, Memory.read t.ibuf a = Memory.read s.ibuf a))

/-! ### Errors -/

/-- R127, R120, R125: an operation that ends in an error has made none of the writes of its success case. Only `ERR`
changes, and `TVALID` for a failing DEC.RESP. -/
def Obligations.ErrorsArePrecise : Prop :=
  ∀ (i : Instr) (s t : State), exec i s = .next t → t.err ≠ .none →
    (i ≠ .decResp → t = { s with err := t.err }) ∧ (i = .decResp → t = { s with tvalid := false, err := t.err })

/-- R121, R126: the code of each error, and the one condition it is raised on, for whatever operation word is
presented. -/
def Obligations.ErrorCodesNameTheirCauses : Prop :=
  (ErrCode.none.code = 0 ∧ ErrCode.badLength.code = 1 ∧ ErrCode.badFunction.code = 2 ∧
    ErrCode.illegalOp.code = 3 ∧ ErrCode.badOperand.code = 4) ∧
  ∀ (s t : State) (w : OpWord) (rest : List HostEvent),
    s.inbox = .present (.word w) :: rest → step s = .next t →
    (t.err = .illegalOp ↔ ∃ e, decodeWord w = .error e) ∧
    (t.err = .badLength ↔ decodeWord w = .ok .decResp ∧ s.ilen ≠ 19) ∧
    (t.err = .badFunction ↔ decodeWord w = .ok .decResp ∧ s.ilen = 19 ∧ Memory.read s.ibuf 1 ≠ some 0x64) ∧
    (t.err = .badOperand ↔ (decodeWord w = .ok .encFrame ∧ s.ilen < 3) ∨
      ∃ b, decodeWord w = .ok (.ibPush b) ∧ s.ilen = config.ibufMax)

/-- R15, R128: every operation writes `ERR` and none looks at it: the error before leaves no trace. -/
def Obligations.NoErrorIsSticky : Prop :=
  (∀ (i : Instr) (s : State) (e : ErrCode), exec i { s with err := e } = exec i s) ∧
  ∀ (s : State) (e : ErrCode) (w : OpWord) (rest : List HostEvent), s.inbox = .present (.word w) :: rest →
    step { s with err := e } = step s

/-- R53, R124: which operation words are legal, bit for bit, and that every other one ends with IllegalOp and changes
nothing but `ERR`. -/
def Obligations.IllegalWordsChangeOnlyErr : Prop :=
  ErrCode.illegalOp.code = 3 ∧
  (∀ w : OpWord, (∃ i, decodeWord w = .ok i) ↔
    (w.extractLsb' 32 8 ∈ ([0x01, 0x03, 0x10, 0x11, 0x12, 0x20, 0x30, 0x40] : List Byte) ∧ w.extractLsb' 0 32 = 0) ∨
    (w.extractLsb' 32 8 ∈ ([0x02, 0x41] : List Byte) ∧ w.extractLsb' 8 24 = 0) ∨ w.extractLsb' 32 8 = 0x42) ∧
  ∀ (s : State) (w : OpWord) (rest : List HostEvent), s.inbox = .present (.word w) :: rest →
    (¬∃ i, decodeWord w = .ok i) → step s = .next { s with inbox := rest, err := .illegalOp }

/-! ### Encoding -/

/-- Decoding the encoding of a well-formed instruction gives it back, for every row of the table and every operand. -/
def Obligations.DecodeOfEncodeIsTheInstruction : Prop :=
  ∀ i : Instr, i.wellFormed = true → decode (encode i) = .ok i

/-- R53: no reserved-but-ignored bits. Whatever decodes to an instruction is that instruction's one encoding, and an
operation word decodes to a well-formed operation and never to a wire layout. -/
def Obligations.EveryEncodingIsTheOnlyOne : Prop :=
  (∀ (e : Encoded) (i : Instr), decode e = .ok i → encode i = e) ∧
  ∀ (w : OpWord) (i : Instr), decodeWord w = .ok i → i.isOperation = true ∧ i.wellFormed = true

/-- The table's `match` and `mask`: a word is an operation exactly when `x and mask = match` for its row. -/
def Obligations.WordsDecodeByMatchAndMask : Prop :=
  (∀ (w : OpWord) (i : Instr), decodeWord w = .ok i → ∃ m k, rowOf i = some (m, k) ∧ w &&& k = m) ∧
  ∀ (w : OpWord) (i : Instr) (m k : OpWord), rowOf i = some (m, k) → w &&& k = m →
    ∃ j, decodeWord w = .ok j ∧ rowOf j = some (m, k)

/-- Words written out from the encodings of R50 to R52, a family each, and the spec's illegal ones (V50 to V61). -/
def Obligations.WrittenOutWordsDecode : Prop :=
  decodeWord 0x0100000000 = .ok .crcInit ∧ decodeWord 0x0200000064 = .ok (.crcByte 0x64) ∧
  decodeWord 0x0300000000 = .ok .crcBuf ∧ decodeWord 0x1000000000 = .ok .encEnable ∧
  decodeWord 0x1100000000 = .ok .encMove ∧ decodeWord 0x1200000000 = .ok .encFrame ∧
  decodeWord 0x2000000000 = .ok .decResp ∧ decodeWord 0x3000000000 = .ok .packF32 ∧
  decodeWord 0x4000000000 = .ok .ibClr ∧ decodeWord 0x41000000FF = .ok (.ibPush 0xFF) ∧
  decodeWord 0x42FFE17B80 = .ok (.setOpa 0xFFE17B80) ∧
  decodeWord 0x0000000000 = .error (.undefinedOp 0x00) ∧ decodeWord 0x1100000001 = .error (.mustBeZero 0x11 1) ∧
  decodeWord 0x4100000100 = .error (.mustBeZero 0x41 0x100)

/-! ### The step -/

/-- A step runs the decoded instruction: when what the host presents decodes to `i`, the step is `exec i` in the
state with that one presentation taken. -/
def Obligations.StepRunsThePresentedInstruction : Prop :=
  ∀ (s : State) (e : Encoded) (rest : List HostEvent) (i : Instr),
    s.inbox = .present e :: rest → decode e = .ok i → step s = exec i { s with inbox := rest }

/-- R133: with nothing presented the block is idle and holds all its state (log entry 2: the step of an idle block is
the model's). -/
def Obligations.IdleBlockHoldsItsState : Prop := ∀ s : State, s.inbox = [] → step s = .next s

/-- R140: the reset event puts every register the rule gives a value to that value, from any state; the telemetry and
the buffers' bytes, which the rule leaves unspecified, are in no clause. That what the host presents next stays is the
model's (log entry 8, DEDUCED, over the inbox of log entry 2), not the rule's. -/
def Obligations.ResetEventRestoresTheResetValues : Prop :=
  ∀ (s : State) (rest : List HostEvent), s.inbox = .reset :: rest → ∃ t : State, step s = .next t ∧
    t.acc = 0xFFFF ∧ t.opa = 0 ∧ t.w0 = 0 ∧ t.w1 = 0 ∧ t.err = .none ∧ t.tvalid = false ∧ t.ilen = 0 ∧
    t.olen = 0 ∧ t.inbox = rest

/-- R25: the values after reset, and that the items it leaves unspecified cannot be read. -/
def Obligations.ResetStateIsTheSpecs : Prop :=
  State.reset.acc = 0xFFFF ∧ State.reset.opa = 0 ∧ State.reset.w0 = 0 ∧ State.reset.w1 = 0 ∧
  State.reset.err = .none ∧ State.reset.tvalid = false ∧ State.reset.ilen = 0 ∧ State.reset.olen = 0 ∧
  (∀ x ∈ [HostItem.tPos, .tForce, .tPower, .tTemp, .tVolt, .tErr],
    hostRead x State.reset = .error .telemetryNotValid) ∧
  ∀ sp a, hostRead (.byte sp a) State.reset = .error (.beyondLength sp a)

/-- The invariant holds after reset. -/
def Obligations.ResetStateMeetsTheInvariant : Prop := State.reset.Inv

/-- R28: every step that goes on keeps the invariant: the bounds of `ILEN` and `OLEN` and the legal lengths of a built
frame, both buffers canonical, within capacity and written up to their length. -/
def Obligations.EveryStepKeepsTheInvariant : Prop :=
  ∀ s t : State, s.Inv → step s = .next t → t.Inv

/-- R9, R120: the step is total. From every state that meets the invariant, whatever operation word or reset the host
presents, the block goes on, and every operation completes. -/
def Obligations.TheBlockNeverStops : Prop :=
  (∀ s : State, s.Inv → (∀ e, s.inbox.head? = some e → e.isWord) → ∃ t, step s = .next t ∧ t.Inv) ∧
  ∀ (i : Instr) (s : State), i.isOperation = true → s.Inv → ∃ t, exec i s = .next t

/-! ### Whole-machine rules -/

/-- R10, R119: each piece of state is changed only by the operations the rule's table names as its writers. -/
def Obligations.StateChangesOnlyByItsWriters : Prop :=
  ∀ (i : Instr) (s t : State), exec i s = .next t →
    (t.acc ≠ s.acc → i = .crcInit ∨ (∃ b, i = .crcByte b) ∨ i = .crcBuf ∨ i = .encEnable ∨ i = .encMove ∨
      i = .encFrame) ∧
    (t.opa ≠ s.opa → ∃ w, i = .setOpa w) ∧ ((t.w0 ≠ s.w0 ∨ t.w1 ≠ s.w1) → i = .packF32) ∧
    ((t.telemetry ≠ s.telemetry ∨ t.tvalid ≠ s.tvalid) → i = .decResp) ∧
    (t.ilen ≠ s.ilen → i = .ibClr ∨ ∃ b, i = .ibPush b) ∧ (t.ibuf ≠ s.ibuf → ∃ b, i = .ibPush b) ∧
    ((t.olen ≠ s.olen ∨ t.obuf ≠ s.obuf) → i = .encEnable ∨ i = .encMove ∨ i = .encFrame) ∧ t.inbox = s.inbox

/-- R16: `TVALID` is set by a DEC.RESP that succeeds, cleared by one that fails, changed by nothing else; and a set
one means 19 bytes, byte 1 equal to 0x64, and the record of those bytes. -/
def Obligations.TvalidMeansAValidatedResponse : Prop :=
  ∀ (i : Instr) (s t : State), exec i s = .next t →
    (i ≠ .decResp → t.tvalid = s.tvalid ∧ t.telemetry = s.telemetry) ∧
    (i = .decResp → (t.tvalid = true ↔ t.err = .none) ∧
      (t.tvalid = true → s.ilen = 19 ∧ Memory.read s.ibuf 1 = some 0x64 ∧
        ∀ f, s.inputIs f → unpackTelemetry f = some t.telemetry))

/-- R84: the built frame changes only when an ENC operation succeeds, which then replaces it whole; an illegal word,
a failing ENC.FRAME and every other operation leave it. -/
def Obligations.BuiltFrameChangesOnlyBySuccessfulEnc : Prop :=
  ∀ (s t : State) (w : OpWord) (rest : List HostEvent),
    s.inbox = .present (.word w) :: rest → step s = .next t →
    ((t.obuf ≠ s.obuf ∨ t.olen ≠ s.olen) →
      (decodeWord w = .ok .encEnable ∨ decodeWord w = .ok .encMove ∨ decodeWord w = .ok .encFrame) ∧
      t.err = .none) ∧
    ((decodeWord w = .ok .encEnable ∨ decodeWord w = .ok .encMove ∨ decodeWord w = .ok .encFrame) → t.err = .none →
      ∃ body : List Byte, t.olen = body.length + 2 ∧ t.acc = crc16 body ∧
        Memory.readBytes t.obuf 0 t.olen = some (body ++ le16Pack (crc16 body)))

/-- R24, R44, R150: what the host may read and what it gets, `OPA` as a pattern and as the two's complement value of
R115; a `T.x` register while `TVALID` is 0 and a byte at or
beyond the length are refused. The last clause is one case of the first guard: `T.POS` after a DEC.RESP that found a
wrong length. R24 and R44 give refusing as one of two treatments: that such a read is refused is the model's (log entry
7, DEDUCED). -/
def Obligations.HostReadsAreGuarded : Prop :=
  ∀ s : State,
    (hostRead .acc s = .ok (.u16 s.acc) ∧ hostRead .opa s = .ok (.bits32 s.opa) ∧
      hostRead .opaSigned s = .ok (.s32 (s.opa.toNat - if s.opa.getLsbD 31 then 4294967296 else 0)) ∧
      hostRead .w0 s = .ok (.u16 s.w0) ∧ hostRead .w1 s = .ok (.u16 s.w1) ∧
      hostRead .err s = .ok (.code s.err.code) ∧ hostRead .tvalid s = .ok (.flag s.tvalid) ∧
      hostRead .ilen s = .ok (.count s.ilen) ∧ hostRead .olen s = .ok (.count s.olen)) ∧
    (s.tvalid = false → ∀ x ∈ [HostItem.tPos, .tForce, .tPower, .tTemp, .tVolt, .tErr],
      hostRead x s = .error .telemetryNotValid) ∧
    (s.tvalid = true → hostRead .tPos s = .ok (.s32 (signed s.telemetry.pos)) ∧
      hostRead .tForce s = .ok (.s32 (signed s.telemetry.force)) ∧
      hostRead .tPower s = .ok (.u16 s.telemetry.power) ∧ hostRead .tTemp s = .ok (.u8 s.telemetry.temp) ∧
      hostRead .tVolt s = .ok (.u16 s.telemetry.volt) ∧ hostRead .tErr s = .ok (.u16 s.telemetry.err)) ∧
    (∀ sp a, s.bufferLen sp ≤ a → hostRead (.byte sp a) s = .error (.beyondLength sp a)) ∧
    (s.Inv → ∀ sp a, a < s.bufferLen sp → ∃ b, Memory.read (s.buffer sp) a = some b ∧
      hostRead (.byte sp a) s = .ok (.u8 b)) ∧
    (s.ilen ≠ 19 → ∃ t, exec .decResp s = .next t ∧ hostRead .tPos t = .error .telemetryNotValid)

/-- R22, R23: no hidden state. Two states that agree on what R24 lets a host read, whatever stale bytes lie beyond the
lengths and whatever the telemetry registers hold while `TVALID` is 0, give the host the same reads, take the same
step, and agree again after it. -/
def Obligations.NothingHiddenCanBeObserved : Prop :=
  ∀ s t : State, s.Alike t →
    (∀ x, hostRead x s = hostRead x t) ∧ outcomesAgree State.Alike (step s) (step t)

/-! ### Sequences of operations -/

/-- R9, R39: operations take effect in the order presented, each on the state the one before it left; what the host
presents later influences none of them. -/
def Obligations.PresentedOperationsRunInOrder : Prop :=
  (∀ (i : Instr) (s : State) (l : List HostEvent),
    exec i { s with inbox := l } = mapOutcome (fun t => { t with inbox := l }) (exec i s)) ∧
  ∀ (is : List Instr) (s : State) (rest : List HostEvent),
    Host.Core.run core is.length { s with inbox := presentAll is ++ rest } = execAll is { s with inbox := rest }

/-- R85: after SET.OPA of a position and ENC.MOVE, bytes 3 to 6 of the frame read back that position. -/
def Obligations.MoveFrameRoundTripsThePosition : Prop :=
  ∀ (v : Int) (s : State), -2147483648 ≤ v → v ≤ 2147483647 → ∃ t b3 b4 b5 b6,
    execAll (encodeMove v) s = .next t ∧ Memory.readBytes t.obuf 3 4 = some [b3, b4, b5, b6] ∧
    be32UnpackS b3 b4 b5 b6 = v

/-- R78: the two ways of summing a byte sequence end with the same `ACC`, and the one over CRC.BYTE has no length limit;
R66: that one does not touch `IBUF`. -/
def Obligations.TwoWaysOfSummingAgree : Prop :=
  ∀ (d : List Byte) (s : State),
    (∃ t, execAll (crcOf d) s = .next t ∧ t.acc = crc16 d ∧ t.ibuf = s.ibuf ∧ t.ilen = s.ilen) ∧
    (d.length ≤ config.ibufMax → ∃ u, execAll (compute d) s = .next u ∧ u.acc = crc16 d)

/-- R67: loading any byte string, however long, and DEC.RESP is the source's `decode_response`: BadLength unless it is
19 bytes, BadFunction unless byte 1 is 0x64, else its telemetry. -/
def Obligations.LoadedBytesDecodeAsTheSourceSays : Prop :=
  ∀ (bytes : List Byte) (s : State), ∃ t, execAll (decodeResponse bytes) s = .next t ∧
    (bytes.length ≠ 19 → t.err = .badLength ∧ t.tvalid = false) ∧
    (bytes.length = 19 → bytes[1]? ≠ some 0x64 → t.err = .badFunction ∧ t.tvalid = false) ∧
    (bytes.length = 19 → bytes[1]? = some 0x64 → t.err = .none ∧ t.tvalid = true ∧
      unpackTelemetry bytes = some t.telemetry)

/-- R141, R142: what the operations do right after reset; CRC.BYTE operations alone compute `crc16` of their bytes. -/
def Obligations.FirstOperationsAfterReset : Prop :=
  (∀ d : List Byte, ∃ t, execAll (d.map .crcByte) State.reset = .next t ∧ t.acc = crc16 d) ∧
  exec .decResp State.reset = .next { State.reset with err := .badLength } ∧
  exec .crcBuf State.reset = .next { State.reset with acc := 0xFFFF } ∧
  exec .encFrame State.reset = .next { State.reset with err := .badOperand } ∧
  ∃ t, exec .encMove State.reset = .next t ∧ t.olen = 9 ∧
    Memory.readBytes t.obuf 0 9 = some [0x01, 0x64, 0x1E, 0x00, 0x00, 0x00, 0x00, 0xAB, 0xE6]

/-- R66, R106: the pseudo-operations' expansions, and the actuator registers each gain's two values go to. -/
def Obligations.PseudoOperationsAndGainRegisters : Prop :=
  (∀ bs : List Byte, ibLoad bs = .ibClr :: bs.map .ibPush ∧ crcOf bs = .crcInit :: bs.map .crcByte) ∧
  (∀ w : Word, moveTo w = [.setOpa w, .encMove] ∧ packGain w = [.setOpa w, .packF32]) ∧
  Gain.kp.registers = (688, 689) ∧ Gain.ki.registers = (690, 691) ∧ Gain.kd.registers = (692, 693)
end

