-- ==== Sys2Proof/Laws/Config.lean ====
section
/-! SUPPORT. The value of each constant of the configuration record, for simp. -/

namespace Sys2Proof

@[simp] theorem config_addr : config.addr = 0x01#8 := rfl
@[simp] theorem config_cmd : config.cmd = 0x64#8 := rfl
@[simp] theorem config_subEnable : config.subEnable = 0x10#8 := rfl
@[simp] theorem config_enablePayload : config.enablePayload = [0x00#8, 0x00#8, 0x00#8, 0x01#8] := rfl
@[simp] theorem config_subMove : config.subMove = 0x1E#8 := rfl
@[simp] theorem config_respLen : config.respLen = 19 := rfl
@[simp] theorem config_fnExpect : config.fnExpect = 0x64#8 := rfl
@[simp] theorem config_crcInit : config.crcInit = 0xFFFF#16 := rfl
@[simp] theorem config_crcPoly : config.crcPoly = 0xA001#16 := rfl
@[simp] theorem config_crcRounds : config.crcRounds = 8 := rfl
@[simp] theorem config_ibufMax : config.ibufMax = 32 := rfl
@[simp] theorem config_obufMax : config.obufMax = 34 := rfl
@[simp] theorem config_bodyMin : config.bodyMin = 3 := rfl

/-- The configuration meets the constraints of spec/00_scope.md R6. -/
theorem config_legal : config.legal := by decide

end Sys2Proof
end

