-- ==== Sys2Proof/Laws/Operands.lean ====
section
/-! SUPPORT. Bits of joined and sliced values, for the byte-order functions and the operation word. -/

namespace Sys2Proof.Machine

theorem extract_append_hi {n m : Nat} (a : BitVec n) (b : BitVec m) : (a ++ b).extractLsb' m n = a := by
  ext i hi
  simp [BitVec.getLsbD_append, hi]

theorem extract_append_lo {n m : Nat} (a : BitVec n) (b : BitVec m) : (a ++ b).extractLsb' 0 m = b := by
  ext i hi
  simp [BitVec.getLsbD_append, hi]

theorem extract_append_above {n m : Nat} (a : BitVec n) (b : BitVec m) (p k : Nat) :
    (a ++ b).extractLsb' (m + p) k = a.extractLsb' p k := by
  ext i hi
  simp [BitVec.getLsbD_append, Nat.add_assoc]

theorem append_adjacent {w : Nat} (v : BitVec w) (p n m : Nat) :
    v.extractLsb' (p + m) n ++ v.extractLsb' p m = v.extractLsb' p (n + m) := by
  ext i hi
  simp only [BitVec.getElem_append, BitVec.getElem_extractLsb']
  split
  · rfl
  · congr 1
    omega

@[simp] theorem immHigh_byteImm (b : Byte) : immHigh (byteImm b) = 0 := by
  unfold immHigh byteImm
  ext i hi
  simp

@[simp] theorem immByte_byteImm (b : Byte) : immByte (byteImm b) = b := by
  unfold immByte byteImm
  ext i hi
  have : i < 32 := by omega
  simp [this, BitVec.getLsbD_eq_getElem hi]

@[simp] theorem le16Unpack_byteOf (c : Half) : le16Unpack (byteOf c 0) (byteOf c 1) = c :=
  (append_adjacent c 0 8 8).trans (by simp)

@[simp] theorem be16Unpack_byteOf (c : Half) : be16Unpack (byteOf c 1) (byteOf c 0) = c := le16Unpack_byteOf c

@[simp] theorem be32Unpack_byteOf (w : Word) :
    be32Unpack (byteOf w 3) (byteOf w 2) (byteOf w 1) (byteOf w 0) = w := by
  have h1 := append_adjacent w 16 8 8
  have h2 := append_adjacent w 8 16 8
  have h3 := append_adjacent w 0 24 8
  have h4 : w.extractLsb' 0 32 = w := by simp
  exact (congrArg (fun v => (v ++ byteOf w 1 : BitVec 24) ++ byteOf w 0) h1).trans
    ((congrArg (fun v => (v ++ byteOf w 0 : BitVec 32)) h2).trans (h3.trans h4))

@[simp] theorem byteOf_be16Unpack_one (a b : Byte) : byteOf (be16Unpack a b) 1 = a := extract_append_hi a b
@[simp] theorem byteOf_be16Unpack_zero (a b : Byte) : byteOf (be16Unpack a b) 0 = b := extract_append_lo a b
@[simp] theorem byteOf_le16Unpack_one (a b : Byte) : byteOf (le16Unpack a b) 1 = b := extract_append_hi b a
@[simp] theorem byteOf_le16Unpack_zero (a b : Byte) : byteOf (le16Unpack a b) 0 = a := extract_append_lo b a

@[simp] theorem byteOf_be32Unpack_zero (a b c d : Byte) : byteOf (be32Unpack a b c d) 0 = d :=
  extract_append_lo (a ++ b ++ c) d

@[simp] theorem byteOf_be32Unpack_one (a b c d : Byte) : byteOf (be32Unpack a b c d) 1 = c :=
  (extract_append_above (a ++ b ++ c) d 0 8).trans (extract_append_lo (a ++ b) c)

@[simp] theorem byteOf_be32Unpack_two (a b c d : Byte) : byteOf (be32Unpack a b c d) 2 = b :=
  (extract_append_above (a ++ b ++ c) d 8 8).trans
    ((extract_append_above (a ++ b) c 0 8).trans (extract_append_lo a b))

@[simp] theorem byteOf_be32Unpack_three (a b c d : Byte) : byteOf (be32Unpack a b c d) 3 = a :=
  (extract_append_above (a ++ b ++ c) d 16 8).trans
    ((extract_append_above (a ++ b) c 8 8).trans (extract_append_hi a b))

@[simp] theorem le16Pack_length (c : Half) : (le16Pack c).length = 2 := rfl
@[simp] theorem be32Pack_length (w : Word) : (be32Pack w).length = 4 := rfl
@[simp] theorem enableBody_length : enableBody.length = 7 := rfl
@[simp] theorem moveBody_length (w : Word) : (moveBody w).length = 7 := rfl

@[simp] theorem buildFrame_length (body : List Byte) : (buildFrame body).length = body.length + 2 := by
  simp [buildFrame]

end Sys2Proof.Machine
end

