-- ==== Sys2Proof/Laws/Decode.lean ====
section
/-! SUPPORT. The fields of an operation word, and the word of its fields. -/

namespace Sys2Proof

open Machine

@[simp] theorem opOf_packWord (op : Byte) (imm : Word) : opOf (packWord op imm) = op := extract_append_hi op imm
@[simp] theorem immOf_packWord (op : Byte) (imm : Word) : immOf (packWord op imm) = imm := extract_append_lo op imm

/-- A word is the word of its two fields (R50). -/
theorem packWord_fields (w : OpWord) : packWord (opOf w) (immOf w) = w :=
  (append_adjacent w 0 8 32).trans (by simp)

@[simp] theorem decodeWord_packWord (op : Byte) (imm : Word) : decodeWord (packWord op imm) = decodeFields op imm := by
  simp [decodeWord]

/-- A format B immediate is determined by its byte. -/
theorem byteImm_immByte {imm : Word} (h : immHigh imm = 0) : byteImm (immByte imm) = imm := by
  unfold byteImm immByte
  ext i hi
  by_cases h8 : i < 8
  · simp [h8, BitVec.getLsbD_eq_getElem hi]
  · have := congrArg (fun v : BitVec 24 => v.getLsbD (i - 8)) h
    have e : 8 + (i - 8) = i := by omega
    have l : i - 8 < 24 := by omega
    simp only [immHigh, BitVec.getLsbD_extractLsb', e, l, decide_true, Bool.true_and] at this
    simp [h8, ← BitVec.getLsbD_eq_getElem hi, this]

/-- A word and a mask, field by field. -/
theorem packWord_and (op op' : Byte) (imm imm' : Word) :
    packWord op imm &&& packWord op' imm' = packWord (op &&& op') (imm &&& imm') := BitVec.and_append

/-- Masking off the byte of a format B immediate leaves nothing. -/
theorem byteImm_and_high (b : Byte) : byteImm b &&& 0xFFFFFF00 = 0 := by
  have h : ∀ b : BitVec 8, b.setWidth 32 &&& 0xFFFFFF00 = (0 : BitVec 32) := by decide +kernel
  exact h b

/-- Every decoded operation word is one of the eleven, with its operand read from the word: all that the decoder of
operation words can answer. -/
theorem decodeFields_cases {op : Byte} {imm : Word} {i : Instr} (h : decodeFields op imm = .ok i) :
    (i = .crcInit ∧ op = 0x01 ∧ imm = 0) ∨ (∃ b, i = .crcByte b ∧ op = 0x02 ∧ imm = byteImm b) ∨
    (i = .crcBuf ∧ op = 0x03 ∧ imm = 0) ∨ (i = .encEnable ∧ op = 0x10 ∧ imm = 0) ∨
    (i = .encMove ∧ op = 0x11 ∧ imm = 0) ∨ (i = .encFrame ∧ op = 0x12 ∧ imm = 0) ∨
    (i = .decResp ∧ op = 0x20 ∧ imm = 0) ∨ (i = .packF32 ∧ op = 0x30 ∧ imm = 0) ∨
    (i = .ibClr ∧ op = 0x40 ∧ imm = 0) ∨ (∃ b, i = .ibPush b ∧ op = 0x41 ∧ imm = byteImm b) ∨
    (∃ w, i = .setOpa w ∧ op = 0x42 ∧ imm = w) := by
  have hN : ∀ {j : Instr}, formatN j op imm = .ok i → i = j ∧ imm = 0 := by
    intro j hj
    unfold formatN at hj
    split at hj
    · cases hj; exact ⟨rfl, ‹_›⟩
    · cases hj
  have hB : ∀ {f : Byte → Instr}, formatB f op imm = .ok i → ∃ b, i = f b ∧ imm = byteImm b := by
    intro f hf
    unfold formatB at hf
    split at hf
    · cases hf; exact ⟨_, rfl, (byteImm_immByte ‹_›).symm⟩
    · cases hf
  unfold decodeFields at h
  split at h
  · exact .inl ⟨(hN h).1, ‹_›, (hN h).2⟩
  split at h
  · obtain ⟨b, h1, h2⟩ := hB h
    exact .inr (.inl ⟨b, h1, ‹_›, h2⟩)
  split at h
  · exact .inr (.inr (.inl ⟨(hN h).1, ‹_›, (hN h).2⟩))
  split at h
  · exact .inr (.inr (.inr (.inl ⟨(hN h).1, ‹_›, (hN h).2⟩)))
  split at h
  · exact .inr (.inr (.inr (.inr (.inl ⟨(hN h).1, ‹_›, (hN h).2⟩))))
  split at h
  · exact .inr (.inr (.inr (.inr (.inr (.inl ⟨(hN h).1, ‹_›, (hN h).2⟩)))))
  split at h
  · exact .inr (.inr (.inr (.inr (.inr (.inr (.inl ⟨(hN h).1, ‹_›, (hN h).2⟩))))))
  split at h
  · exact .inr (.inr (.inr (.inr (.inr (.inr (.inr (.inl ⟨(hN h).1, ‹_›, (hN h).2⟩)))))))
  split at h
  · exact .inr (.inr (.inr (.inr (.inr (.inr (.inr (.inr (.inl ⟨(hN h).1, ‹_›, (hN h).2⟩))))))))
  split at h
  · obtain ⟨b, h1, h2⟩ := hB h
    exact .inr (.inr (.inr (.inr (.inr (.inr (.inr (.inr (.inr (.inl ⟨b, h1, ‹_›, h2⟩)))))))))
  split at h
  · unfold formatW at h
    cases h
    exact .inr (.inr (.inr (.inr (.inr (.inr (.inr (.inr (.inr (.inr ⟨imm, rfl, ‹_›, rfl⟩)))))))))
  · cases h

end Sys2Proof
end

