-- ==== Sys2Proof/Laws/Memory.lean ====
section
/-! SUPPORT. The laws of the byte buffers: a read after a write, the canonical form, and reads and writes of byte
sequences. -/

namespace Sys2Proof.Machine

@[simp] theorem Memory.read_nil (k : Nat) : Memory.read [] k = none := rfl

/-- A read after a write: the written byte at its index, the old byte everywhere else. -/
theorem Memory.read_write (m : Memory) (k : Nat) (v : BitVec 8) (a : Nat) :
    Memory.read (Memory.write m k v) a = if a = k then some v else Memory.read m a := by
  induction m with
  | nil => simp [Memory.write, Memory.read]
  | cons c m ih =>
    obtain ⟨b, x⟩ := c
    simp only [Memory.write]
    split
    · rfl
    · split
      · subst_vars
        by_cases h : a = b <;> simp [Memory.read, h]
      · by_cases h : a = b
        · subst h
          have : a ≠ k := fun e => ‹¬k = a› e.symm
          simp [Memory.read, this]
        · simp [Memory.read, h, ih]

@[simp] theorem Memory.read_write_same (m : Memory) (k : Nat) (v : BitVec 8) :
    Memory.read (Memory.write m k v) k = some v := by simp [Memory.read_write]

theorem Memory.read_write_other (m : Memory) (k : Nat) (v : BitVec 8) {a : Nat} (h : a ≠ k) :
    Memory.read (Memory.write m k v) a = Memory.read m a := by simp [Memory.read_write, h]

/-- The indices a write lists: its own and those listed before. -/
theorem Memory.mem_write {m : Memory} {k : Nat} {v : BitVec 8} {c : Host.Cell} (h : c ∈ Memory.write m k v) :
    c.1 = k ∨ c ∈ m := by
  induction m with
  | nil => simp only [Memory.write, List.mem_singleton] at h; simp [h]
  | cons d m ih =>
    obtain ⟨b, x⟩ := d
    simp only [Memory.write] at h
    split at h
    · rcases List.mem_cons.mp h with rfl | h
      · exact .inl rfl
      · exact .inr h
    · split at h
      · rcases List.mem_cons.mp h with rfl | h
        · exact .inl rfl
        · exact .inr (List.mem_cons_of_mem _ h)
      · rcases List.mem_cons.mp h with rfl | h
        · exact .inr List.mem_cons_self
        · exact (ih h).imp_right (List.mem_cons_of_mem _)

/-- A write keeps the canonical form. -/
theorem Memory.write_wf {m : Memory} (h : Memory.wf m) (k : Nat) (v : BitVec 8) : Memory.wf (Memory.write m k v) := by
  induction m with
  | nil => simp [Memory.wf, Memory.write]
  | cons c m ih =>
    obtain ⟨b, x⟩ := c
    obtain ⟨hb, hm⟩ := List.pairwise_cons.mp h
    simp only [Memory.write]
    split
    · rename_i hk
      refine List.pairwise_cons.mpr ⟨fun d hd => ?_, h⟩
      rcases List.mem_cons.mp hd with rfl | hd
      · exact hk
      · exact Nat.lt_trans hk (hb d hd)
    · split
      · subst_vars
        exact List.pairwise_cons.mpr ⟨hb, hm⟩
      · refine List.pairwise_cons.mpr ⟨fun d hd => ?_, ih hm⟩
        rcases Memory.mem_write hd with e | hd
        · show b < d.1
          omega
        · exact hb d hd

/-- The empty buffer is canonical. -/
theorem Memory.nil_wf : Memory.wf [] := List.Pairwise.nil

/-- A write of a byte sequence keeps the canonical form. -/
theorem Memory.writeBytes_wf {m : Memory} (h : Memory.wf m) (k : Nat) (bs : List (BitVec 8)) :
    Memory.wf (Memory.writeBytes m k bs) := by
  induction bs generalizing m k with
  | nil => exact h
  | cons b bs ih => exact ih (Memory.write_wf h k b) (k + 1)

/-- A read after a write of a byte sequence: its bytes at its indices, the old byte everywhere else. -/
theorem Memory.read_writeBytes (m : Memory) (k : Nat) (bs : List (BitVec 8)) (a : Nat) :
    Memory.read (Memory.writeBytes m k bs) a =
      if k ≤ a ∧ a < k + bs.length then bs[a - k]? else Memory.read m a := by
  induction bs generalizing m k with
  | nil =>
    have : ¬(k ≤ a ∧ a < k) := by omega
    simp [Memory.writeBytes, this]
  | cons b bs ih =>
    simp only [Memory.writeBytes, ih, List.length_cons, Memory.read_write]
    by_cases h1 : a = k
    · subst h1; simp
    · by_cases h2 : k ≤ a ∧ a < k + (bs.length + 1)
      · have h3 : k + 1 ≤ a ∧ a < k + 1 + bs.length := by omega
        have h4 : a - k = (a - (k + 1)) + 1 := by omega
        simp [h2, h3, h4]
      · have h3 : ¬(k + 1 ≤ a ∧ a < k + 1 + bs.length) := by omega
        rw [if_neg h3, if_neg h2, if_neg h1]

/-- A defined read of a byte sequence gives as many bytes as were asked for, each the byte at its index. -/
theorem Memory.readBytes_some {m : Memory} {k n : Nat} {bs : List (BitVec 8)}
    (h : Memory.readBytes m k n = some bs) : bs.length = n ∧ ∀ i, i < n → Memory.read m (k + i) = bs[i]? := by
  induction n generalizing k bs with
  | zero => simp only [Memory.readBytes, Option.some.injEq] at h; subst h; simp
  | succ n ih =>
    simp only [Memory.readBytes] at h
    split at h
    · rename_i b cs hb hcs
      obtain ⟨hl, hr⟩ := ih hcs
      cases h
      refine ⟨by simp [hl], fun i hi => ?_⟩
      cases i with
      | zero => simpa using hb
      | succ i =>
        have := hr i (by omega)
        rw [show k + (i + 1) = k + 1 + i by omega, this]
        simp
    · cases h

/-- A read of a byte sequence is defined where every byte has been written. -/
theorem Memory.readBytes_of_read {m : Memory} {k n : Nat} {bs : List (BitVec 8)} (hl : bs.length = n)
    (h : ∀ i, i < n → Memory.read m (k + i) = bs[i]?) : Memory.readBytes m k n = some bs := by
  induction n generalizing k bs with
  | zero => simp only [List.length_eq_zero_iff] at hl; subst hl; rfl
  | succ n ih =>
    obtain ⟨b, cs, rfl⟩ : ∃ b cs, bs = b :: cs := by cases bs <;> simp_all
    have h0 := h 0 (by omega)
    have h1 : Memory.readBytes m (k + 1) n = some cs := by
      refine ih (by simpa using hl) fun i hi => ?_
      have := h (i + 1) (by omega)
      rw [show k + 1 + i = k + (i + 1) by omega, this]
      simp
    simp only [Nat.add_zero, List.getElem?_cons_zero] at h0
    simp [Memory.readBytes, h0, h1]

/-- A byte sequence written at index 0 is read back whole. -/
theorem Memory.readBytes_writeBytes (m : Memory) (bs : List (BitVec 8)) :
    Memory.readBytes (Memory.writeBytes m 0 bs) 0 bs.length = some bs :=
  Memory.readBytes_of_read rfl fun i hi => by
    rw [Memory.read_writeBytes]
    simp [hi]

/-- Every byte written gives a defined read. -/
theorem Memory.readBytes_exists {m : Memory} {k n : Nat} (h : ∀ i, i < n → (Memory.read m (k + i)).isSome = true) :
    ∃ bs, Memory.readBytes m k n = some bs := by
  induction n generalizing k with
  | zero => exact ⟨[], rfl⟩
  | succ n ih =>
    obtain ⟨b, hb⟩ := Option.isSome_iff_exists.mp (h 0 (by omega))
    obtain ⟨bs, hbs⟩ := ih (k := k + 1) fun i hi => by
      rw [show k + 1 + i = k + (i + 1) by omega]
      exact h (i + 1) (by omega)
    exact ⟨b :: bs, by simp only [Nat.add_zero] at hb; simp [Memory.readBytes, hb, hbs]⟩

/-- Reads of a byte sequence in two buffers that agree on its indices are equal. -/
theorem Memory.readBytes_congr {m m' : Memory} {k n : Nat}
    (h : ∀ i, i < n → Memory.read m (k + i) = Memory.read m' (k + i)) :
    Memory.readBytes m k n = Memory.readBytes m' k n := by
  induction n generalizing k with
  | zero => rfl
  | succ n ih =>
    have h0 := h 0 (by omega)
    have h1 := ih (k := k + 1) fun i hi => by
      rw [show k + 1 + i = k + (i + 1) by omega]
      exact h (i + 1) (by omega)
    simp only [Nat.add_zero] at h0
    simp only [Memory.readBytes, h0, h1]

end Sys2Proof.Machine
end

