-- ==== Sys2Proof/Laws/State.lean ====
section
/-! SUPPORT. One lemma per field of State per named update: what the update writes, and that it writes nothing else. -/

namespace Sys2Proof.Machine

@[simp] theorem succeed_acc (s : State) : (succeed s).acc = s.acc := rfl
@[simp] theorem succeed_opa (s : State) : (succeed s).opa = s.opa := rfl
@[simp] theorem succeed_w0 (s : State) : (succeed s).w0 = s.w0 := rfl
@[simp] theorem succeed_w1 (s : State) : (succeed s).w1 = s.w1 := rfl
@[simp] theorem succeed_telemetry (s : State) : (succeed s).telemetry = s.telemetry := rfl
@[simp] theorem succeed_err (s : State) : (succeed s).err = ErrCode.none := rfl
@[simp] theorem succeed_tvalid (s : State) : (succeed s).tvalid = s.tvalid := rfl
@[simp] theorem succeed_ilen (s : State) : (succeed s).ilen = s.ilen := rfl
@[simp] theorem succeed_olen (s : State) : (succeed s).olen = s.olen := rfl
@[simp] theorem succeed_ibuf (s : State) : (succeed s).ibuf = s.ibuf := rfl
@[simp] theorem succeed_obuf (s : State) : (succeed s).obuf = s.obuf := rfl
@[simp] theorem succeed_inbox (s : State) : (succeed s).inbox = s.inbox := rfl

@[simp] theorem setTvalid_acc (v : Bool) (s : State) : (setTvalid v s).acc = s.acc := rfl
@[simp] theorem setTvalid_opa (v : Bool) (s : State) : (setTvalid v s).opa = s.opa := rfl
@[simp] theorem setTvalid_w0 (v : Bool) (s : State) : (setTvalid v s).w0 = s.w0 := rfl
@[simp] theorem setTvalid_w1 (v : Bool) (s : State) : (setTvalid v s).w1 = s.w1 := rfl
@[simp] theorem setTvalid_telemetry (v : Bool) (s : State) : (setTvalid v s).telemetry = s.telemetry := rfl
@[simp] theorem setTvalid_err (v : Bool) (s : State) : (setTvalid v s).err = s.err := rfl
@[simp] theorem setTvalid_tvalid (v : Bool) (s : State) : (setTvalid v s).tvalid = v := rfl
@[simp] theorem setTvalid_ilen (v : Bool) (s : State) : (setTvalid v s).ilen = s.ilen := rfl
@[simp] theorem setTvalid_olen (v : Bool) (s : State) : (setTvalid v s).olen = s.olen := rfl
@[simp] theorem setTvalid_ibuf (v : Bool) (s : State) : (setTvalid v s).ibuf = s.ibuf := rfl
@[simp] theorem setTvalid_obuf (v : Bool) (s : State) : (setTvalid v s).obuf = s.obuf := rfl
@[simp] theorem setTvalid_inbox (v : Bool) (s : State) : (setTvalid v s).inbox = s.inbox := rfl

@[simp] theorem raiseError_acc (e : ErrCode) (s : State) : (raiseError e s).acc = s.acc := rfl
@[simp] theorem raiseError_opa (e : ErrCode) (s : State) : (raiseError e s).opa = s.opa := rfl
@[simp] theorem raiseError_w0 (e : ErrCode) (s : State) : (raiseError e s).w0 = s.w0 := rfl
@[simp] theorem raiseError_w1 (e : ErrCode) (s : State) : (raiseError e s).w1 = s.w1 := rfl
@[simp] theorem raiseError_telemetry (e : ErrCode) (s : State) : (raiseError e s).telemetry = s.telemetry := rfl
@[simp] theorem raiseError_err (e : ErrCode) (s : State) : (raiseError e s).err = e := rfl
@[simp] theorem raiseError_tvalid (e : ErrCode) (s : State) : (raiseError e s).tvalid = s.tvalid := rfl
@[simp] theorem raiseError_ilen (e : ErrCode) (s : State) : (raiseError e s).ilen = s.ilen := rfl
@[simp] theorem raiseError_olen (e : ErrCode) (s : State) : (raiseError e s).olen = s.olen := rfl
@[simp] theorem raiseError_ibuf (e : ErrCode) (s : State) : (raiseError e s).ibuf = s.ibuf := rfl
@[simp] theorem raiseError_obuf (e : ErrCode) (s : State) : (raiseError e s).obuf = s.obuf := rfl
@[simp] theorem raiseError_inbox (e : ErrCode) (s : State) : (raiseError e s).inbox = s.inbox := rfl

@[simp] theorem raiseIllegalOp_acc (s : State) : (raiseIllegalOp s).acc = s.acc := rfl
@[simp] theorem raiseIllegalOp_opa (s : State) : (raiseIllegalOp s).opa = s.opa := rfl
@[simp] theorem raiseIllegalOp_w0 (s : State) : (raiseIllegalOp s).w0 = s.w0 := rfl
@[simp] theorem raiseIllegalOp_w1 (s : State) : (raiseIllegalOp s).w1 = s.w1 := rfl
@[simp] theorem raiseIllegalOp_telemetry (s : State) : (raiseIllegalOp s).telemetry = s.telemetry := rfl
@[simp] theorem raiseIllegalOp_err (s : State) : (raiseIllegalOp s).err = ErrCode.illegalOp := rfl
@[simp] theorem raiseIllegalOp_tvalid (s : State) : (raiseIllegalOp s).tvalid = s.tvalid := rfl
@[simp] theorem raiseIllegalOp_ilen (s : State) : (raiseIllegalOp s).ilen = s.ilen := rfl
@[simp] theorem raiseIllegalOp_olen (s : State) : (raiseIllegalOp s).olen = s.olen := rfl
@[simp] theorem raiseIllegalOp_ibuf (s : State) : (raiseIllegalOp s).ibuf = s.ibuf := rfl
@[simp] theorem raiseIllegalOp_obuf (s : State) : (raiseIllegalOp s).obuf = s.obuf := rfl
@[simp] theorem raiseIllegalOp_inbox (s : State) : (raiseIllegalOp s).inbox = s.inbox := rfl

@[simp] theorem setBuffer_ibuf_acc (s : State) (m : Memory) : (s.setBuffer .ibuf m).acc = s.acc := rfl
@[simp] theorem setBuffer_ibuf_opa (s : State) (m : Memory) : (s.setBuffer .ibuf m).opa = s.opa := rfl
@[simp] theorem setBuffer_ibuf_w0 (s : State) (m : Memory) : (s.setBuffer .ibuf m).w0 = s.w0 := rfl
@[simp] theorem setBuffer_ibuf_w1 (s : State) (m : Memory) : (s.setBuffer .ibuf m).w1 = s.w1 := rfl
@[simp] theorem setBuffer_ibuf_telemetry (s : State) (m : Memory) : (s.setBuffer .ibuf m).telemetry = s.telemetry := rfl
@[simp] theorem setBuffer_ibuf_err (s : State) (m : Memory) : (s.setBuffer .ibuf m).err = s.err := rfl
@[simp] theorem setBuffer_ibuf_tvalid (s : State) (m : Memory) : (s.setBuffer .ibuf m).tvalid = s.tvalid := rfl
@[simp] theorem setBuffer_ibuf_ilen (s : State) (m : Memory) : (s.setBuffer .ibuf m).ilen = s.ilen := rfl
@[simp] theorem setBuffer_ibuf_olen (s : State) (m : Memory) : (s.setBuffer .ibuf m).olen = s.olen := rfl
@[simp] theorem setBuffer_ibuf_ibuf (s : State) (m : Memory) : (s.setBuffer .ibuf m).ibuf = m := rfl
@[simp] theorem setBuffer_ibuf_obuf (s : State) (m : Memory) : (s.setBuffer .ibuf m).obuf = s.obuf := rfl
@[simp] theorem setBuffer_ibuf_inbox (s : State) (m : Memory) : (s.setBuffer .ibuf m).inbox = s.inbox := rfl

@[simp] theorem setBuffer_obuf_acc (s : State) (m : Memory) : (s.setBuffer .obuf m).acc = s.acc := rfl
@[simp] theorem setBuffer_obuf_opa (s : State) (m : Memory) : (s.setBuffer .obuf m).opa = s.opa := rfl
@[simp] theorem setBuffer_obuf_w0 (s : State) (m : Memory) : (s.setBuffer .obuf m).w0 = s.w0 := rfl
@[simp] theorem setBuffer_obuf_w1 (s : State) (m : Memory) : (s.setBuffer .obuf m).w1 = s.w1 := rfl
@[simp] theorem setBuffer_obuf_telemetry (s : State) (m : Memory) : (s.setBuffer .obuf m).telemetry = s.telemetry := rfl
@[simp] theorem setBuffer_obuf_err (s : State) (m : Memory) : (s.setBuffer .obuf m).err = s.err := rfl
@[simp] theorem setBuffer_obuf_tvalid (s : State) (m : Memory) : (s.setBuffer .obuf m).tvalid = s.tvalid := rfl
@[simp] theorem setBuffer_obuf_ilen (s : State) (m : Memory) : (s.setBuffer .obuf m).ilen = s.ilen := rfl
@[simp] theorem setBuffer_obuf_olen (s : State) (m : Memory) : (s.setBuffer .obuf m).olen = s.olen := rfl
@[simp] theorem setBuffer_obuf_ibuf (s : State) (m : Memory) : (s.setBuffer .obuf m).ibuf = s.ibuf := rfl
@[simp] theorem setBuffer_obuf_obuf (s : State) (m : Memory) : (s.setBuffer .obuf m).obuf = m := rfl
@[simp] theorem setBuffer_obuf_inbox (s : State) (m : Memory) : (s.setBuffer .obuf m).inbox = s.inbox := rfl

@[simp] theorem rejectResponse_acc (e : ErrCode) (s : State) : (rejectResponse e s).acc = s.acc := rfl
@[simp] theorem rejectResponse_opa (e : ErrCode) (s : State) : (rejectResponse e s).opa = s.opa := rfl
@[simp] theorem rejectResponse_w0 (e : ErrCode) (s : State) : (rejectResponse e s).w0 = s.w0 := rfl
@[simp] theorem rejectResponse_w1 (e : ErrCode) (s : State) : (rejectResponse e s).w1 = s.w1 := rfl
@[simp] theorem rejectResponse_telemetry (e : ErrCode) (s : State) : (rejectResponse e s).telemetry = s.telemetry := rfl
@[simp] theorem rejectResponse_err (e : ErrCode) (s : State) : (rejectResponse e s).err = e := rfl
@[simp] theorem rejectResponse_tvalid (e : ErrCode) (s : State) : (rejectResponse e s).tvalid = false := rfl
@[simp] theorem rejectResponse_ilen (e : ErrCode) (s : State) : (rejectResponse e s).ilen = s.ilen := rfl
@[simp] theorem rejectResponse_olen (e : ErrCode) (s : State) : (rejectResponse e s).olen = s.olen := rfl
@[simp] theorem rejectResponse_ibuf (e : ErrCode) (s : State) : (rejectResponse e s).ibuf = s.ibuf := rfl
@[simp] theorem rejectResponse_obuf (e : ErrCode) (s : State) : (rejectResponse e s).obuf = s.obuf := rfl
@[simp] theorem rejectResponse_inbox (e : ErrCode) (s : State) : (rejectResponse e s).inbox = s.inbox := rfl

@[simp] theorem acceptResponse_acc (x : Telemetry) (s : State) : (acceptResponse x s).acc = s.acc := rfl
@[simp] theorem acceptResponse_opa (x : Telemetry) (s : State) : (acceptResponse x s).opa = s.opa := rfl
@[simp] theorem acceptResponse_w0 (x : Telemetry) (s : State) : (acceptResponse x s).w0 = s.w0 := rfl
@[simp] theorem acceptResponse_w1 (x : Telemetry) (s : State) : (acceptResponse x s).w1 = s.w1 := rfl
@[simp] theorem acceptResponse_telemetry (x : Telemetry) (s : State) : (acceptResponse x s).telemetry = x := rfl
@[simp] theorem acceptResponse_err (x : Telemetry) (s : State) : (acceptResponse x s).err = ErrCode.none := rfl
@[simp] theorem acceptResponse_tvalid (x : Telemetry) (s : State) : (acceptResponse x s).tvalid = true := rfl
@[simp] theorem acceptResponse_ilen (x : Telemetry) (s : State) : (acceptResponse x s).ilen = s.ilen := rfl
@[simp] theorem acceptResponse_olen (x : Telemetry) (s : State) : (acceptResponse x s).olen = s.olen := rfl
@[simp] theorem acceptResponse_ibuf (x : Telemetry) (s : State) : (acceptResponse x s).ibuf = s.ibuf := rfl
@[simp] theorem acceptResponse_obuf (x : Telemetry) (s : State) : (acceptResponse x s).obuf = s.obuf := rfl
@[simp] theorem acceptResponse_inbox (x : Telemetry) (s : State) : (acceptResponse x s).inbox = s.inbox := rfl

@[simp] theorem applyReset_acc (s : State) : (applyReset s).acc = State.reset.acc := rfl
@[simp] theorem applyReset_opa (s : State) : (applyReset s).opa = State.reset.opa := rfl
@[simp] theorem applyReset_w0 (s : State) : (applyReset s).w0 = State.reset.w0 := rfl
@[simp] theorem applyReset_w1 (s : State) : (applyReset s).w1 = State.reset.w1 := rfl
@[simp] theorem applyReset_telemetry (s : State) : (applyReset s).telemetry = State.reset.telemetry := rfl
@[simp] theorem applyReset_err (s : State) : (applyReset s).err = State.reset.err := rfl
@[simp] theorem applyReset_tvalid (s : State) : (applyReset s).tvalid = State.reset.tvalid := rfl
@[simp] theorem applyReset_ilen (s : State) : (applyReset s).ilen = State.reset.ilen := rfl
@[simp] theorem applyReset_olen (s : State) : (applyReset s).olen = State.reset.olen := rfl
@[simp] theorem applyReset_ibuf (s : State) : (applyReset s).ibuf = State.reset.ibuf := rfl
@[simp] theorem applyReset_obuf (s : State) : (applyReset s).obuf = State.reset.obuf := rfl
@[simp] theorem applyReset_inbox (s : State) : (applyReset s).inbox = s.inbox := rfl

@[simp] theorem presentFirst_acc (e : Encoded) (s : State) : (presentFirst e s).acc = s.acc := rfl
@[simp] theorem presentFirst_opa (e : Encoded) (s : State) : (presentFirst e s).opa = s.opa := rfl
@[simp] theorem presentFirst_w0 (e : Encoded) (s : State) : (presentFirst e s).w0 = s.w0 := rfl
@[simp] theorem presentFirst_w1 (e : Encoded) (s : State) : (presentFirst e s).w1 = s.w1 := rfl
@[simp] theorem presentFirst_telemetry (e : Encoded) (s : State) : (presentFirst e s).telemetry = s.telemetry := rfl
@[simp] theorem presentFirst_err (e : Encoded) (s : State) : (presentFirst e s).err = s.err := rfl
@[simp] theorem presentFirst_tvalid (e : Encoded) (s : State) : (presentFirst e s).tvalid = s.tvalid := rfl
@[simp] theorem presentFirst_ilen (e : Encoded) (s : State) : (presentFirst e s).ilen = s.ilen := rfl
@[simp] theorem presentFirst_olen (e : Encoded) (s : State) : (presentFirst e s).olen = s.olen := rfl
@[simp] theorem presentFirst_ibuf (e : Encoded) (s : State) : (presentFirst e s).ibuf = s.ibuf := rfl
@[simp] theorem presentFirst_obuf (e : Encoded) (s : State) : (presentFirst e s).obuf = s.obuf := rfl
@[simp] theorem presentFirst_inbox (e : Encoded) (s : State) : (presentFirst e s).inbox = .present e :: s.inbox := rfl

@[simp] theorem buffer_ibuf (s : State) : s.buffer .ibuf = s.ibuf := rfl
@[simp] theorem buffer_obuf (s : State) : s.buffer .obuf = s.obuf := rfl
@[simp] theorem bufferLen_ibuf (s : State) : s.bufferLen .ibuf = s.ilen := rfl
@[simp] theorem bufferLen_obuf (s : State) : s.bufferLen .obuf = s.olen := rfl

end Sys2Proof.Machine
end

