-- ==== Sys2Proof/Laws/Ops.lean ====
section
/-! SUPPORT. One lemma per shared operation and per meaning: everything it can do. Later proofs cite these and do
not unfold the definitions. -/

namespace Sys2Proof.Machine

@[simp] theorem capacity_ibuf : Space.capacity .ibuf = 32 := rfl
@[simp] theorem capacity_obuf : Space.capacity .obuf = 34 := rfl

/-- A defined `MemRead`: within length and capacity, and the bytes at their indices. -/
theorem memRead_some {sp : Space} {addr n : Nat} {s : State} {bs : List Byte} (h : memRead sp addr n s = some bs) :
    addr + n ≤ s.bufferLen sp ∧ addr + n ≤ sp.capacity ∧ bs.length = n ∧
      ∀ i, i < n → Memory.read (s.buffer sp) (addr + i) = bs[i]? := by
  unfold memRead at h
  split at h
  · rename_i hb
    exact ⟨hb.1, hb.2, Memory.readBytes_some h⟩
  · cases h

/-- Where `MemRead` is defined. -/
theorem memRead_of_read {sp : Space} {addr n : Nat} {s : State} {bs : List Byte} (hlen : addr + n ≤ s.bufferLen sp)
    (hcap : addr + n ≤ sp.capacity) (hl : bs.length = n)
    (h : ∀ i, i < n → Memory.read (s.buffer sp) (addr + i) = bs[i]?) : memRead sp addr n s = some bs := by
  simp only [memRead, hlen, hcap, and_self, if_true]
  exact Memory.readBytes_of_read hl h

/-- `MemRead` looks at the buffer's length and at the bytes below it, and at nothing else of the state. -/
theorem memRead_congr {sp : Space} {addr n : Nat} {s t : State} (hl : s.bufferLen sp = t.bufferLen sp)
    (h : ∀ i, i < n → addr + i < s.bufferLen sp →
      Memory.read (s.buffer sp) (addr + i) = Memory.read (t.buffer sp) (addr + i)) :
    memRead sp addr n s = memRead sp addr n t := by
  unfold memRead
  rw [hl]
  by_cases hc : addr + n ≤ t.bufferLen sp ∧ addr + n ≤ sp.capacity
  · rw [if_pos hc, if_pos hc]
    exact Memory.readBytes_congr fun i hi => h i hi (by omega)
  · rw [if_neg hc, if_neg hc]

/-- Where `IBUF[0..ILEN-1]` is `data`, reading it gives `data`. -/
theorem memRead_input {s : State} {data : List Byte} (h : s.inputIs data) :
    memRead .ibuf 0 s.ilen s = some data :=
  memRead_of_read (by simp) (by simpa using h.bound) h.length fun i hi => by simpa using h.bytes i hi

/-- Conversely, what reading `IBUF[0..ILEN-1]` gives is there. -/
theorem inputIs_of_memRead {s : State} {data : List Byte} (h : memRead .ibuf 0 s.ilen s = some data) :
    s.inputIs data := by
  obtain ⟨_, hc, hl, hr⟩ := memRead_some h
  exact ⟨by simpa using hc, hl, fun i hi => by simpa using hr i hi⟩

/-- The invariant gives the input buffer its bytes. -/
theorem State.Inv.input {s : State} (h : s.Inv) : ∃ data, s.inputIs data := by
  obtain ⟨data, hd⟩ := Memory.readBytes_exists (m := s.ibuf) (k := 0) (n := s.ilen) fun i hi => by
    simpa using h.ibufFilled i hi
  obtain ⟨hl, hr⟩ := Memory.readBytes_some hd
  exact ⟨data, h.ilenBound, hl, fun i hi => by simpa using hr i hi⟩

/-- The unpacker is total on the 15 bytes it reads. -/
theorem unpackFields_total {bs : List Byte} (h : bs.length = 15) : ∃ t, unpackFields bs = some t := by
  match bs, h with
  | [_, _, _, _, _, _, _, _, _, _, _, _, _, _, _], _ => exact ⟨_, rfl⟩

/-- Where 19 bytes are loaded, the fields are read from its bytes 2 to 16. -/
theorem memRead_fields {s : State} {f : List Byte} (h : s.inputIs f) (hl : s.ilen = 19) :
    memRead .ibuf 2 15 s = some ((f.drop 2).take 15) := by
  refine memRead_of_read (by simp [hl]) (by simp) (by simp [h.length, hl]) fun i hi => ?_
  rw [buffer_ibuf, h.bytes (2 + i) (by omega)]
  simp [List.getElem?_drop, hi]

/-- A `MemWrite` at indices the buffer has. -/
theorem memWrite_fits {sp : Space} {addr : Nat} {v : List Byte} (s : State) (h : addr + v.length ≤ sp.capacity) :
    memWrite sp addr v s = some (s.setBuffer sp (Memory.writeBytes (s.buffer sp) addr v)) := by
  simp [memWrite, h]

/-- The common end of the ENC operations on a body that fits. -/
theorem emitFrame_fits {body : List Byte} (s : State) (h : body.length + 2 ≤ 34) :
    emitFrame body s = .next { s with
      obuf := Memory.writeBytes s.obuf 0 (buildFrame body), olen := body.length + 2, acc := crc16 body,
      err := .none } := by
  unfold emitFrame
  rw [memWrite_fits s (by simpa using h)]
  rfl

/-- All that the common end of the ENC operations can do. -/
theorem emitFrame_cases (body : List Byte) (s : State) :
    (body.length + 2 ≤ 34 ∧ emitFrame body s = .next { s with
      obuf := Memory.writeBytes s.obuf 0 (buildFrame body), olen := body.length + 2, acc := crc16 body,
      err := .none }) ∨
    (34 < body.length + 2 ∧ emitFrame body s = .fault (.outsideBuffer .obuf)) := by
  by_cases h : body.length + 2 ≤ 34
  · exact .inl ⟨h, emitFrame_fits s h⟩
  · refine .inr ⟨by omega, ?_⟩
    have : ¬(0 + (buildFrame body).length ≤ Space.capacity .obuf) := by simpa using h
    unfold emitFrame memWrite
    rw [if_neg this]

/-- ENC.ENABLE's own effect, from any state. -/
theorem exec_encEnable (s : State) : exec .encEnable s = .next { s with
    obuf := Memory.writeBytes s.obuf 0 (buildFrame enableBody), olen := 9, acc := crc16 enableBody, err := .none } :=
  emitFrame_fits s (body := enableBody) (by simp)

/-- ENC.MOVE's own effect, from any state. -/
theorem exec_encMove (s : State) : exec .encMove s = .next { s with
    obuf := Memory.writeBytes s.obuf 0 (buildFrame (moveBody s.opa)), olen := 9, acc := crc16 (moveBody s.opa),
    err := .none } :=
  emitFrame_fits s (body := moveBody s.opa) (by simp)

/-- All that CRC.BUF can do. -/
theorem execCrcBuf_cases (s : State) :
    (∃ data, memRead .ibuf 0 s.ilen s = some data ∧
      execCrcBuf s = .next { s with acc := crc16 data, err := .none }) ∨
    (memRead .ibuf 0 s.ilen s = none ∧ execCrcBuf s = .fault (.unreadable .ibuf)) := by
  unfold execCrcBuf
  cases h : memRead .ibuf 0 s.ilen s with
  | some data => exact .inl ⟨data, rfl, rfl⟩
  | none => exact .inr ⟨rfl, rfl⟩

/-- All that ENC.FRAME can do. -/
theorem execEncFrame_cases (s : State) :
    (s.ilen < 3 ∧ execEncFrame s = .next { s with err := .badOperand }) ∨
    (3 ≤ s.ilen ∧ ∃ body, memRead .ibuf 0 s.ilen s = some body ∧ body.length = s.ilen ∧
      execEncFrame s = .next { s with
        obuf := Memory.writeBytes s.obuf 0 (buildFrame body), olen := s.ilen + 2, acc := crc16 body,
        err := .none }) ∨
    (3 ≤ s.ilen ∧ memRead .ibuf 0 s.ilen s = none ∧ execEncFrame s = .fault (.unreadable .ibuf)) := by
  unfold execEncFrame
  by_cases h3 : s.ilen < config.bodyMin
  · exact .inl ⟨h3, by rw [if_pos h3]; rfl⟩
  · have h3' : 3 ≤ s.ilen := Nat.le_of_not_lt h3
    rw [if_neg h3]
    cases h : memRead .ibuf 0 s.ilen s with
    | none => exact .inr (.inr ⟨h3', rfl, rfl⟩)
    | some body =>
      obtain ⟨_, hcap, hl, _⟩ := memRead_some h
      simp only [capacity_ibuf] at hcap
      refine .inr (.inl ⟨h3', body, rfl, hl, ?_⟩)
      show emitFrame body s = _
      rw [emitFrame_fits s (by omega), hl]

/-- All that IB.PUSH can do. -/
theorem execIbPush_cases (b : Byte) (s : State) :
    (s.ilen = 32 ∧ execIbPush b s = .next { s with err := .badOperand }) ∨
    (s.ilen < 32 ∧ execIbPush b s = .next { s with
      ibuf := Memory.write s.ibuf s.ilen b, ilen := s.ilen + 1, err := .none }) ∨
    (32 < s.ilen ∧ execIbPush b s = .fault (.outsideBuffer .ibuf)) := by
  unfold execIbPush
  by_cases h : s.ilen = config.ibufMax
  · exact .inl ⟨h, by rw [if_pos h]; rfl⟩
  · rw [if_neg h]
    have h' : s.ilen ≠ 32 := h
    by_cases hlt : s.ilen < 32
    · rw [memWrite_fits s (by simp; omega)]
      exact .inr (.inl ⟨hlt, rfl⟩)
    · have : ¬(s.ilen + [b].length ≤ Space.capacity .ibuf) := by simp; omega
      unfold memWrite
      rw [if_neg this]
      exact .inr (.inr ⟨by omega, rfl⟩)

/-- All that DEC.RESP can do. -/
theorem execDecResp_cases (s : State) :
    (s.ilen ≠ 19 ∧ execDecResp s = .next { s with tvalid := false, err := .badLength }) ∨
    (s.ilen = 19 ∧ ∃ fn, Memory.read s.ibuf 1 = some fn ∧ fn ≠ 0x64 ∧
      execDecResp s = .next { s with tvalid := false, err := .badFunction }) ∨
    (s.ilen = 19 ∧ Memory.read s.ibuf 1 = some 0x64 ∧ ∃ bs t, memRead .ibuf 2 15 s = some bs ∧
      unpackFields bs = some t ∧ execDecResp s = .next { s with telemetry := t, tvalid := true, err := .none }) ∨
    (s.ilen = 19 ∧ (Memory.read s.ibuf 1 = none ∨ (memRead .ibuf 2 15 s).bind unpackFields = none) ∧
      execDecResp s = .fault (.unreadable .ibuf)) := by
  by_cases hl : s.ilen = 19
  · have hl' : ¬s.ilen ≠ config.respLen := fun h => h hl
    have h1 : memRead .ibuf 1 1 s = (Memory.read s.ibuf 1).map fun b => [b] := by
      have : 1 + 1 ≤ s.bufferLen .ibuf ∧ 1 + 1 ≤ Space.capacity .ibuf := by simp [hl]
      unfold memRead
      rw [if_pos this]
      cases h : Memory.read s.ibuf 1 <;> simp [Memory.readBytes, h]
    unfold execDecResp
    rw [if_neg hl', h1]
    cases h : Memory.read s.ibuf 1 with
    | none => exact .inr (.inr (.inr ⟨hl, .inl rfl, rfl⟩))
    | some fn =>
      simp only [Option.map_some]
      by_cases hf : fn = 0x64
      · subst hf
        rw [if_neg (by decide)]
        unfold unpackResponse
        cases hu : (memRead .ibuf 2 15 s).bind unpackFields with
        | none => exact .inr (.inr (.inr ⟨hl, .inr rfl, rfl⟩))
        | some t =>
          obtain ⟨bs, hb, ht⟩ := Option.bind_eq_some_iff.mp hu
          exact .inr (.inr (.inl ⟨hl, rfl, bs, t, hb, ht, rfl⟩))
      · rw [if_pos (show fn ≠ config.fnExpect from hf)]
        exact .inr (.inl ⟨hl, fn, rfl, hf, rfl⟩)
  · refine .inl ⟨hl, ?_⟩
    unfold execDecResp
    rw [if_pos (show s.ilen ≠ config.respLen from hl)]
    rfl

/-- All that a step that goes on can have done: nothing was presented, a reset, an illegal word, or the operation
that was presented. -/
theorem step_cases {s t : State} (h : step s = .next t) :
    (s.inbox = [] ∧ t = s) ∨
    (∃ rest, s.inbox = .reset :: rest ∧ t = { State.reset with inbox := rest }) ∨
    (∃ w rest e, s.inbox = .present (.word w) :: rest ∧ decodeWord w = .error e ∧
      t = { s with inbox := rest, err := .illegalOp }) ∨
    (∃ p rest i, s.inbox = .present p :: rest ∧ decode p = .ok i ∧ exec i { s with inbox := rest } = .next t) := by
  unfold step takeEvent at h
  cases hi : s.inbox with
  | nil => rw [hi] at h; cases h; exact .inl ⟨rfl, rfl⟩
  | cons ev rest =>
    rw [hi] at h
    cases ev with
    | reset => cases h; exact .inr (.inl ⟨rest, rfl, rfl⟩)
    | present p =>
      simp only at h
      cases hd : decode p with
      | ok i =>
        rw [hd] at h
        exact .inr (.inr (.inr ⟨p, rest, i, rfl, hd, h⟩))
      | error e =>
        rw [hd] at h
        cases p with
        | word w => cases h; exact .inr (.inr (.inl ⟨w, rest, e, rfl, hd, rfl⟩))
        | frame bs => cases h

end Sys2Proof.Machine
end

