-- ==== Sys2Proof/Laws/PerInstr.lean ====
section
/-! SUPPORT. The family TableRow: each instruction's encoding fits its row of spec/opcode_table.json. For an
operation, "a word `x` is that operation when `x and mask = match`" (spec/30_encoding.md, opening), with the mask its
format fixes (R51); for a wire layout, the row's width in bytes. -/

namespace Sys2Proof.Laws.TableRow

open Sys2Proof

/-- The encoding of `i` fits its row. -/
def Statement (i : Instr) : Prop :=
  (∃ w m k f, encode i = .word w ∧ rowOf i = some (m, k) ∧ w &&& k = m ∧ formatOf i = some f ∧ formatMask f = k) ∨
  (∃ bs, encode i = .frame bs ∧ rowOf i = none ∧ formatOf i = none ∧ (bs.length = 9 ∨ bs.length = 19))

theorem crcInit : Statement .crcInit := .inl ⟨_, _, _, _, rfl, rfl, rfl, rfl, rfl⟩

theorem crcByte (b : Byte) : Statement (.crcByte b) :=
  .inl ⟨_, _, _, _, rfl, rfl,
    (packWord_and 0x02 0xFF (Machine.byteImm b) 0xFFFFFF00).trans
      (congrArg (packWord _) (byteImm_and_high b)), rfl, rfl⟩

theorem crcBuf : Statement .crcBuf := .inl ⟨_, _, _, _, rfl, rfl, rfl, rfl, rfl⟩
theorem encEnable : Statement .encEnable := .inl ⟨_, _, _, _, rfl, rfl, rfl, rfl, rfl⟩
theorem encMove : Statement .encMove := .inl ⟨_, _, _, _, rfl, rfl, rfl, rfl, rfl⟩
theorem encFrame : Statement .encFrame := .inl ⟨_, _, _, _, rfl, rfl, rfl, rfl, rfl⟩
theorem decResp : Statement .decResp := .inl ⟨_, _, _, _, rfl, rfl, rfl, rfl, rfl⟩
theorem packF32 : Statement .packF32 := .inl ⟨_, _, _, _, rfl, rfl, rfl, rfl, rfl⟩
theorem ibClr : Statement .ibClr := .inl ⟨_, _, _, _, rfl, rfl, rfl, rfl, rfl⟩

theorem ibPush (b : Byte) : Statement (.ibPush b) :=
  .inl ⟨_, _, _, _, rfl, rfl,
    (packWord_and 0x41 0xFF (Machine.byteImm b) 0xFFFFFF00).trans
      (congrArg (packWord _) (byteImm_and_high b)), rfl, rfl⟩

theorem setOpa (w : Word) : Statement (.setOpa w) :=
  .inl ⟨_, _, _, _, rfl, rfl, (packWord_and 0x42 0xFF w 0).trans (congrArg (packWord _) BitVec.and_zero), rfl, rfl⟩

theorem wireEnable : Statement .wireEnable := .inr ⟨_, rfl, rfl, rfl, .inl rfl⟩

theorem wireMove (position : Word) (crc : Half) : Statement (.wireMove position crc) :=
  .inr ⟨_, rfl, rfl, rfl, .inl rfl⟩

theorem wireResponse (address : Byte) (position force : Word) (power : Half) (temp : Byte) (volt errs crc : Half) :
    Statement (.wireResponse address position force power temp volt errs crc) := .inr ⟨_, rfl, rfl, rfl, .inr rfl⟩

end Sys2Proof.Laws.TableRow
end

