-- ==== Sys2Proof/Laws/Program.lean ====
section
/-! SUPPORT. How a run and a list of operations unfold, one step at a time. -/

namespace Sys2Proof.Machine

/-- Two equal next outcomes have equal states. Rewriting with an outcome and then this is how a proof reads a next
state without evaluating it. -/
theorem next_inj {s t : State} (h : (Host.Outcome.next s : Host.Outcome State Fault Refusal) = .next t) : s = t := by
  injection h

/-- A run's first step goes on. -/
theorem run_next {k : Nat} {s t : State} (h : step s = .next t) :
    Host.Core.run core (k + 1) s = Host.Core.run core k t := by
  have key : ∀ (M : Host.Core) (x y : M.State), M.step x = .next y → M.run (k + 1) x = M.run k y := by
    intro M x y hx
    rw [Host.Core.run, hx]
  exact key core s t h

/-- A run's first step faults. -/
theorem run_fault {k : Nat} {s : State} {f : Fault} (h : step s = .fault f) :
    Host.Core.run core (k + 1) s = .fault f := by
  have key : ∀ (M : Host.Core) (x : M.State) (y : M.Fault), M.step x = .fault y → M.run (k + 1) x = .fault y := by
    intro M x y hx
    rw [Host.Core.run, hx]
  exact key core s f h

/-- A run's first step is refused. -/
theorem run_refused {k : Nat} {s : State} {r : Refusal} (h : step s = .refused r) :
    Host.Core.run core (k + 1) s = .refused r := by
  have key : ∀ (M : Host.Core) (x : M.State) (y : M.Refusal), M.step x = .refused y → M.run (k + 1) x = .refused y := by
    intro M x y hx
    rw [Host.Core.run, hx]
  exact key core s r h

/-- No operations change nothing. -/
@[simp] theorem execAll_nil (s : State) : execAll [] s = .next s := rfl

/-- The first of a list of operations goes on. -/
theorem execAll_cons {i : Instr} {is : List Instr} {s t : State} (h : exec i s = .next t) :
    execAll (i :: is) s = execAll is t := by
  simp only [execAll, h]

/-- A list run after another that goes on. -/
theorem execAll_append {x y : List Instr} {s t : State} (h : execAll x s = .next t) :
    execAll (x ++ y) s = execAll y t := by
  induction x generalizing s with
  | nil => rw [next_inj h, List.nil_append]
  | cons i x ih =>
    simp only [List.cons_append, execAll] at h ⊢
    cases he : exec i s with
    | next u => simp only [he] at h ⊢; exact ih h
    | fault f => simp [he] at h
    | refused r => simp [he] at h

end Sys2Proof.Machine
end

