-- ==== Sys2Proof/Tests/Slice0.lean ====
section
/-! SUPPORT. The model against the spec's own numbers (spec/95_test_vectors.md; every expected value is transcribed
from there), and for every statement with hypotheses a concrete state that meets them. -/

namespace Sys2Proof.Tests

set_option Elab.async false

open Sys2Proof Sys2Proof.Machine

/-- The reset state with `IBUF[0..]` holding `data` and nothing else changed. -/
def loaded (data : List Byte) : State :=
  { State.reset with ilen := data.length, ibuf := Memory.writeBytes [] 0 data }

/-- A state the host presents one operation word to. -/
def presenting (w : OpWord) (s : State) : State := { s with inbox := [.present (.word w)] }

/-- What a check sees of the state an outcome goes on in. -/
def see {α : Type} (f : State → α) (o : Host.Outcome State Fault Refusal) : Option α := (nextState o).map f

/-- The built frame, `OLEN` and `ACC`. -/
def built (s : State) : Option (List Byte) × Nat × Half := (Memory.readBytes s.obuf 0 s.olen, s.olen, s.acc)

/-- The decoded telemetry as numbers, in the order of the vectors' columns. -/
def record (s : State) : List Int :=
  [s.telemetry.posSigned, s.telemetry.forceSigned, s.telemetry.power.toNat, s.telemetry.temp.toNat,
    s.telemetry.volt.toNat, s.telemetry.err.toNat]

/-- The frame of V27. -/
def v27 : List Byte :=
  [0x01, 0x64, 0x00, 0x00, 0x27, 0x10, 0xFF, 0xFF, 0xFA, 0x24, 0x00, 0x0C, 0x25, 0x5D, 0xF2, 0x00, 0x00, 0x3E, 0x2C]

/-- The frame of V35: V27 with byte 1 wrong. -/
def v35 : List Byte :=
  [0x01, 0x65, 0x00, 0x00, 0x27, 0x10, 0xFF, 0xFF, 0xFA, 0x24, 0x00, 0x0C, 0x25, 0x5D, 0xF2, 0x00, 0x00, 0xFF, 0xBC]

/-! ### Well-formedness, decoding and encoding -/

/-- R56: the CRC of a move frame is that of its body (V15), and no other value. -/
theorem test_wellFormed_move : (Instr.wireMove 10000 0xDAB1).wellFormed = true ∧
    (Instr.wireMove 10000 0xDAB0).wellFormed = false ∧ (Instr.wireMove 10001 0xDAB1).wellFormed = false := by
  decide +kernel

/-- V50 to V60, and the remaining codes of R52 written out by hand. -/
theorem test_decode_words :
    decodeWord 0x0100000000 = .ok .crcInit ∧ decodeWord 0x0200000064 = .ok (.crcByte 0x64) ∧
    decodeWord 0x0300000000 = .ok .crcBuf ∧ decodeWord 0x1000000000 = .ok .encEnable ∧
    decodeWord 0x1100000000 = .ok .encMove ∧ decodeWord 0x1200000000 = .ok .encFrame ∧
    decodeWord 0x2000000000 = .ok .decResp ∧ decodeWord 0x3000000000 = .ok .packF32 ∧
    decodeWord 0x4000000000 = .ok .ibClr ∧ decodeWord 0x41000000FF = .ok (.ibPush 0xFF) ∧
    decodeWord 0x4200002710 = .ok (.setOpa 10000) ∧ decodeWord 0x42FFE17B80 = .ok (.setOpa (pattern (-2000000))) := by
  decide

/-- V54 to V58: the illegal words. -/
theorem test_decode_illegal :
    decodeWord 0x0000000000 = .error (.undefinedOp 0x00) ∧ decodeWord 0x1100000001 = .error (.mustBeZero 0x11 1) ∧
    decodeWord 0x4100000100 = .error (.mustBeZero 0x41 0x100) ∧ decodeWord 0xFF00000000 = .error (.undefinedOp 0xFF) ∧
    decodeWord 0x0500000000 = .error (.undefinedOp 0x05) := by
  decide

/-- R55 to R57: the bytes of V11, V15 and V27 as the layouts they are. -/
theorem test_decode_frames :
    decode (.frame [0x01, 0x64, 0x10, 0x00, 0x00, 0x00, 0x01, 0x03, 0xE7]) = .ok .wireEnable ∧
    decode (.frame [0x01, 0x64, 0x1E, 0x00, 0x00, 0x27, 0x10, 0xB1, 0xDA]) = .ok (.wireMove 10000 0xDAB1) ∧
    decode (.frame v27) = .ok (.wireResponse 0x01 10000 (pattern (-1500)) 12 37 24050 0x0000 0x2C3E) ∧
    decode (.frame v35) = .error .noLayoutContent ∧ decode (.frame (v27.take 18)) = .error (.noLayoutLength 18) := by
  decide +kernel

/-- The table's numbers: `match` values of its operations, and its layouts in wire order (log entry 9). -/
theorem test_decodeTableWord :
    decodeTableWord 40 0x1200000000 = some .encFrame ∧ decodeTableWord 40 0x4100000100 = none ∧
    decodeTableWord 72 0x0164100000000103E7 = some .wireEnable ∧
    decodeTableWord 72 0x01641E00002710B1DA = some (.wireMove 10000 0xDAB1) ∧
    decodeTableWord 152 0x016400002710FFFFFA24000C255DF200003E2C =
      some (.wireResponse 0x01 10000 (pattern (-1500)) 12 37 24050 0x0000 0x2C3E) := by
  decide +kernel

/-- A table number is what the next step runs. -/
theorem test_withFetchWord :
    see State.opa (step (State.reset.withFetchWord 40 0x4200002710)) = some 10000 ∧
    nextState (step (State.reset.withFetchWord 72 0x0164100000000103E7)) = none := by
  decide +kernel

/-- R7, R66: the byte lists of V21 and V22 as they are written there, and a group that R65 reads. -/
theorem test_assemble_byteList :
    assembleLine "IB.LOAD 01 64 11".toList = .ok (ibLoad [0x01, 0x64, 0x11]) ∧
    assembleLine "IB.LOAD 01 64 1E 00 00 27 10".toList = .ok (ibLoad [0x01, 0x64, 0x1E, 0x00, 0x00, 0x27, 0x10]) ∧
    assembleLine "CRC.OF 01 0x64 255".toList = .ok (crcOf [0x01, 0x64, 0xFF]) ∧
    assembleLine "IB.PUSH 64".toList = .ok [.ibPush 64] ∧ assembleLine "IB.PUSH 1E".toList = .error .wrongOperands ∧
    assembleLine "IB.LOAD 01 6".toList = .ok (ibLoad [0x01, 0x06]) ∧
    assembleLine "IB.LOAD 256".toList = .error .wrongOperands ∧ assembleLine "IB.LOAD".toList = .ok [.ibClr] := by
  decide +kernel

/-- R65, R66: assembler lines. -/
theorem test_assemble :
    assembleLine "SET.OPA -2000000 ; down".toList = .ok [.setOpa 0xFFE17B80] ∧
    assembleLine "  IB.PUSH 0xff".toList = .ok [.ibPush 0xFF] ∧
    assembleLine "IB.LOAD 1 0x64".toList = .ok [.ibClr, .ibPush 0x01, .ibPush 0x64] ∧
    assembleLine "CRC.BYTE 256".toList = .error .wrongOperands ∧
    assembleLine "MOVE.TO 600".toList = .ok [.setOpa 600, .encMove] ∧
    assembleLine "; nothing".toList = .ok [] := by
  decide +kernel

/-! ### The CRC unit -/

/-- V4 to V10d, and E1's V1. -/
theorem test_crc16 :
    crc16 [] = 0xFFFF ∧ crc16 [0x00] = 0x40BF ∧ crc16 [0xFF] = 0x00FF ∧ crc16 [0x01, 0x64] = 0xCB01 ∧
    crc16 [0x31, 0x32, 0x33, 0x34, 0x35, 0x36, 0x37, 0x38, 0x39] = 0x4B37 ∧ crc16 [0x01, 0x64, 0x1E] = 0xC88A ∧
    crc16 [0x01, 0x64, 0x10, 0x00, 0x00, 0x00, 0x01] = 0xE703 ∧ crc16 [0x00, 0x00, 0x00, 0x00] = 0x2400 ∧
    crc16 [0xFF, 0xFF, 0xFF, 0xFF] = 0xB001 ∧ crc16 [0x01, 0x64, 0x11] = 0xCCCA ∧
    crc16 [0x01, 0x64, 0x10, 0x00, 0x00, 0x00, 0x01, 0x03, 0xE7] = 0 ∧ crc16 (v27.take 17) = 0x2C3E := by
  decide +kernel

/-- The reference of C9 on the catalogue's check value, "123456789" (V8). -/
theorem test_refCrc : refCrc [0x31, 0x32, 0x33, 0x34, 0x35, 0x36, 0x37, 0x38, 0x39] = 0x4B37 := by decide +kernel

/-- R74, R75, V7: CRC.INIT, then a byte at a time. -/
theorem test_crcInit_crcByte :
    see (fun s => (s.acc, s.err)) (execAll (crcOf [0x01, 0x64]) { State.reset with acc := 0x1234, err := .illegalOp }) =
      some (0xCB01, .none) := by
  decide +kernel

/-- R76: CRC.BUF does not start from the old `ACC`. -/
theorem test_crcBuf :
    see State.acc (exec .crcBuf { loaded [0x01, 0x64, 0x11] with acc := 0 }) = some 0xCCCA := by
  decide +kernel

/-! ### Frame building -/

/-- V11. -/
theorem test_encEnable : see built (exec .encEnable State.reset) =
    some (some [0x01, 0x64, 0x10, 0x00, 0x00, 0x00, 0x01, 0x03, 0xE7], 9, 0xE703) := by
  decide +kernel

/-- V12, V16 and V20. -/
theorem test_encMove :
    see built (exec .encMove State.reset) =
      some (some [0x01, 0x64, 0x1E, 0x00, 0x00, 0x00, 0x00, 0xAB, 0xE6], 9, 0xE6AB) ∧
    see built (execAll (encodeMove (-2000000)) State.reset) =
      some (some [0x01, 0x64, 0x1E, 0xFF, 0xE1, 0x7B, 0x80, 0xE8, 0x94], 9, 0x94E8) ∧
    see built (execAll (moveTo 0x12345678) State.reset) =
      some (some [0x01, 0x64, 0x1E, 0x12, 0x34, 0x56, 0x78, 0xD0, 0xD2], 9, 0xD2D0) := by
  decide +kernel

/-- V21. -/
theorem test_encFrame : see built (exec .encFrame (loaded [0x01, 0x64, 0x11])) =
    some (some [0x01, 0x64, 0x11, 0xCA, 0xCC], 5, 0xCCCA) := by
  decide +kernel

/-- V24: too short a body. -/
theorem test_encFrame_short : nextState (exec .encFrame (loaded [0x01, 0x64])) =
    some { loaded [0x01, 0x64] with err := .badOperand } := by
  decide +kernel

/-! ### Decoding -/

/-- V27, V28 and V29b: the fields, their signs, and that neither address nor CRC is looked at. -/
theorem test_decResp_accepts :
    see record (exec .decResp (loaded v27)) = some [10000, -1500, 12, 37, 24050, 0x0000] ∧
    see record (exec .decResp (loaded [0x01, 0x64, 0xFF, 0xE1, 0x7B, 0x80, 0x7F, 0xFF, 0xFF, 0xFF, 0xFF, 0xFF, 0xFF,
      0x00, 0x00, 0x80, 0x01, 0xF8, 0xAD])) = some [-2000000, 2147483647, 65535, 255, 0, 0x8001] ∧
    see record (exec .decResp (loaded [0x7F, 0x64, 0x80, 0x00, 0x00, 0x00, 0x80, 0x00, 0x00, 0x00, 0x00, 0x00, 0x00,
      0x00, 0x00, 0x00, 0x00, 0x00, 0x00])) = some [-2147483648, -2147483648, 0, 0, 0, 0] := by
  decide +kernel

/-- V30 to V35: each rejection, and which test comes first. -/
theorem test_decResp_rejects :
    see State.err (exec .decResp (loaded [])) = some .badLength ∧
    see State.err (exec .decResp (loaded (v27.take 18))) = some .badLength ∧
    see State.err (exec .decResp (loaded (v27 ++ [0x00]))) = some .badLength ∧
    see State.err (exec .decResp (loaded (v35.take 18))) = some .badLength ∧
    see State.err (exec .decResp (loaded v35)) = some .badFunction := by
  decide +kernel

/-! ### Packing and loading -/

/-- V44 (nearest binary32 to 3.14159) and V45. -/
theorem test_packF32 :
    see (fun s => (s.w0, s.w1)) (execAll (packGain 0x40490FD0) State.reset) = some (0xD00F, 0x4940) ∧
    see (fun s => (s.w0, s.w1)) (execAll (packGain 0x12345678) State.reset) = some (0x7856, 0x3412) := by
  decide +kernel

/-- R110: no byte is erased, though `ILEN` says none is there. -/
theorem test_ibClr : see (fun s => (s.ilen, Memory.read s.ibuf 1)) (exec .ibClr (loaded [0x01, 0x64])) =
    some (0, some 0x64) := by
  decide +kernel

/-- R111: the next index; and V38's full buffer. -/
theorem test_ibPush :
    see (fun s => (s.ilen, Memory.readBytes s.ibuf 0 3)) (exec (.ibPush 0x11) (loaded [0x01, 0x64])) =
      some (3, some [0x01, 0x64, 0x11]) ∧
    see (fun s => (s.ilen, s.err)) (exec (.ibPush 0xAA) (loaded (List.replicate 32 0xAA))) =
      some (32, .badOperand) := by
  decide +kernel

/-- V52. -/
theorem test_setOpa : see State.opa (step (presenting 0x4200002710 State.reset)) = some 10000 := by decide +kernel

/-- R53, V61: an illegal word leaves `TVALID` as it was. -/
theorem test_illegal_word :
    see (fun s => (s.err, s.tvalid)) (step (presenting 0x0000000000 { State.reset with tvalid := true })) =
      some (.illegalOp, true) := by
  decide +kernel

/-- R12, R115: the host's two readings of `OPA`, at V53's pattern and at both ends of the signed range. -/
theorem test_hostRead_opa :
    see (hostRead .opa) (exec (.setOpa 0xFFE17B80) State.reset) = some (.ok (.bits32 0xFFE17B80)) ∧
    see (hostRead .opaSigned) (exec (.setOpa 0xFFE17B80) State.reset) = some (.ok (.s32 (-2000000))) ∧
    see (hostRead .opaSigned) (exec (.setOpa 0x80000000) State.reset) = some (.ok (.s32 (-2147483648))) ∧
    see (hostRead .opaSigned) (exec (.setOpa 0x7FFFFFFF) State.reset) = some (.ok (.s32 2147483647)) := by
  decide +kernel

/-- R24: a host read of the telemetry, refused and then granted. -/
theorem test_hostRead :
    hostRead .tForce (loaded v27) = .error .telemetryNotValid ∧
    see (hostRead .tForce) (exec .decResp (loaded v27)) = some (.ok (.s32 (-1500))) ∧
    hostRead (.byte .ibuf 19) (loaded v27) = .error (.beyondLength .ibuf 19) ∧
    hostRead (.byte .ibuf 18) (loaded v27) = .ok (.u8 0x2C) := by
  decide +kernel

/-! ### States the statements' hypotheses hold in -/

/-- A loaded state has the bytes it was loaded with. -/
theorem loaded_inputIs {data : List Byte} (h : data.length ≤ 32) : (loaded data).inputIs data :=
  inputIs_of_memRead (memRead_of_read (by simp [loaded]) (by simpa [loaded] using h) rfl fun i hi => by
    have hb := (Memory.readBytes_some (Memory.readBytes_writeBytes [] data)).2 i
    exact hb hi)

/-- A loaded state meets the invariant. -/
theorem loaded_inv {data : List Byte} (h : data.length ≤ 32) : (loaded data).Inv where
  ilenBound := h
  olenShape := .inl rfl
  ibufWf := Memory.writeBytes_wf List.Pairwise.nil _ _
  obufWf := List.Pairwise.nil
  ibufWithin := fun a ha => by
    have ha' : data.length ≤ a := Nat.le_trans h ha
    simp [loaded, Memory.read_writeBytes, Memory.read, Nat.not_lt.mpr ha']
  obufWithin := fun _ _ => rfl
  ibufFilled := fun a ha => by
    have ha' : a < data.length := ha
    simp [loaded, Memory.read_writeBytes, ha']
  obufFilled := fun a ha => absurd ha (Nat.not_lt_zero a)

/-- Thirty-two bytes, the most `IBUF` holds. -/
def full : List Byte := List.replicate 32 0xAA

/-- The state after V27 was loaded and accepted. -/
def accepted : State := { loaded v27 with telemetry := ⟨10000, pattern (-1500), 12, 37, 24050, 0⟩, tvalid := true }

theorem accepted_inv : accepted.Inv := by
  have h := loaded_inv (data := v27) (by decide)
  exact ⟨h.ilenBound, h.olenShape, h.ibufWf, h.obufWf, h.ibufWithin, h.obufWithin, h.ibufFilled, h.obufFilled⟩

theorem accepted_step : exec .decResp (loaded v27) = .next accepted := rfl

theorem presenting_inv {w : OpWord} {s : State} (h : s.Inv) : (presenting w s).Inv :=
  ⟨h.ilenBound, h.olenShape, h.ibufWf, h.obufWf, h.ibufWithin, h.obufWithin, h.ibufFilled, h.obufFilled⟩

/-- CrcChangesWithAnyOneByte: bytes that differ in one bit, at either end. -/
theorem witness_CrcChangesWithAnyOneByte : (0x00 : Byte) ≠ 0x01 ∧ (0x00 : Byte) ≠ 0x80 := by decide

/-- BigEndian32RoundTrip and MoveFrameRoundTripsThePosition: both ends of the range. -/
theorem witness_BigEndian32RoundTrip : ((-2147483648 : Int) ≤ -2147483648 ∧ (-2147483648 : Int) ≤ 2147483647) ∧
    ((-2147483648 : Int) ≤ 2147483647 ∧ (2147483647 : Int) ≤ 2147483647) := by decide

theorem witness_MoveFrameRoundTripsThePosition : ∃ (v : Int) (_s : State), -2147483648 ≤ v ∧ v ≤ 2147483647 :=
  ⟨-2147483648, State.reset, by decide, by decide⟩

/-- The clauses on an operation's word (hasWordN, hasWordB, hasWordW, endsIllegal), for each statement about an
instruction: a word of its code with the lowest and one with the highest must-be-zero bit set. -/
theorem witness_words :
    ((0x0100000001 : OpWord).extractLsb' 32 8 = (0x0100000000 : OpWord).extractLsb' 32 8 ∧
      (0x0100000001 : OpWord).extractLsb' 0 32 ≠ 0 ∧ (0x4080000000 : OpWord).extractLsb' 0 32 ≠ 0) ∧
    ((0x0200000100 : OpWord).extractLsb' 32 8 = (0x0200000000 : OpWord).extractLsb' 32 8 ∧
      (0x0200000100 : OpWord).extractLsb' 8 24 ≠ 0 ∧ (0x4180000000 : OpWord).extractLsb' 8 24 ≠ 0) ∧
    (0x42FFFFFFFF : OpWord).extractLsb' 32 8 = (0x4200000000 : OpWord).extractLsb' 32 8 ∧
    (presenting 0x0100000001 State.reset).inbox = .present (.word 0x0100000001) :: [] := by decide

/-- CrcBufSumsTheInput: an empty and a full buffer. -/
theorem witness_CrcBufSumsTheInput :
    ((loaded []).inputIs [] ∧ (loaded []).ilen = 0) ∧ ((loaded full).inputIs full ∧ (loaded full).ilen = 32) :=
  ⟨⟨loaded_inputIs (by decide), rfl⟩, loaded_inputIs (by decide), rfl⟩

/-- EncFrameBuildsTheGeneralFrame: a body one too short, the shortest, and the longest. -/
theorem witness_EncFrameBuildsTheGeneralFrame :
    (loaded [0x01, 0x64]).ilen < 3 ∧
    ((loaded [0x01, 0x64, 0x11]).inputIs [0x01, 0x64, 0x11] ∧ 3 ≤ (loaded [0x01, 0x64, 0x11]).ilen) ∧
    ((loaded full).inputIs full ∧ 3 ≤ (loaded full).ilen) :=
  ⟨by decide, ⟨loaded_inputIs (by decide), by decide⟩, loaded_inputIs (by decide), by decide⟩

/-- EncFrameAgreesWithMoveAndEnable: the move body of V22, and the enable body. -/
theorem witness_EncFrameAgreesWithMoveAndEnable :
    (∃ s : State, s.inputIs ([0x01, 0x64, 0x1E] ++ be32Pack 10000)) ∧
    ∃ s : State, s.inputIs [0x01, 0x64, 0x10, 0x00, 0x00, 0x00, 0x01] :=
  ⟨⟨loaded [0x01, 0x64, 0x1E, 0x00, 0x00, 0x27, 0x10], loaded_inputIs (by decide)⟩,
    ⟨loaded [0x01, 0x64, 0x10, 0x00, 0x00, 0x00, 0x01], loaded_inputIs (by decide)⟩⟩

/-- DecRespChecksThenUnpacks: lengths on each side of 19, and 19 with a wrong and a right byte 1. -/
theorem witness_DecRespChecksThenUnpacks :
    ((loaded (v27.take 18)).ilen ≠ 19 ∧ (loaded (v27 ++ [0x00])).ilen ≠ 19) ∧
    ((loaded v35).inputIs v35 ∧ (loaded v35).ilen = 19 ∧ v35[1]? = some 0x65 ∧ (0x65 : Byte) ≠ 0x64) ∧
    ((loaded v27).inputIs v27 ∧ (loaded v27).ilen = 19 ∧ v27[1]? = some 0x64) :=
  ⟨by decide, ⟨loaded_inputIs (by decide), by decide⟩, loaded_inputIs (by decide), by decide⟩

theorem witness_UnpackReadsTheFixedFields : (v27.take 18).length ≠ 19 ∧ (v27 ++ [0x00]).length ≠ 19 := by decide

/-- DecRespRejectsExactlyTwoClasses, ResponseLayoutGoesToTelemetry: each verdict's own input. -/
theorem witness_DecRespRejectsExactlyTwoClasses :
    ((loaded (v27.take 18)).inputIs (v27.take 18) ∧ (v27.take 18).length ≠ 19) ∧
    ((loaded v35).inputIs v35 ∧ v35.length = 19 ∧ v35[1]? ≠ some 0x64) ∧
    ((loaded v27).inputIs v27 ∧ v27.length = 19 ∧ v27[1]? = some 0x64) :=
  ⟨⟨loaded_inputIs (by decide), by decide⟩, ⟨loaded_inputIs (by decide), by decide⟩, loaded_inputIs (by decide),
    by decide⟩

theorem witness_ResponseLayoutGoesToTelemetry : (loaded v27).inputIs v27 ∧
    encode (.wireResponse 0x01 10000 (pattern (-1500)) 12 37 24050 0 0x2C3E) = .frame v27 :=
  ⟨loaded_inputIs (by decide), by decide⟩

/-- DecRespReadsOnlyBytes1To16: a buffer that differs in bytes 0, 17 and 18. -/
theorem witness_DecRespReadsOnlyBytes1To16 : ∃ m : Memory,
    (∀ i, 1 ≤ i → i ≤ 16 → Memory.read m i = Memory.read (loaded v27).ibuf i) ∧
    Memory.read m 0 ≠ Memory.read (loaded v27).ibuf 0 ∧ Memory.read m 17 ≠ Memory.read (loaded v27).ibuf 17 ∧
    Memory.read m 18 ≠ Memory.read (loaded v27).ibuf 18 := by
  refine ⟨Memory.write (Memory.write (Memory.write (loaded v27).ibuf 0 0x7F) 17 0) 18 0, fun i h1 h2 => ?_, by decide⟩
  rw [Memory.read_write_other _ _ _ (by omega), Memory.read_write_other _ _ _ (by omega),
    Memory.read_write_other _ _ _ (by omega)]

/-- IbPushAppendsOneByte: full; empty; room for one. -/
theorem witness_IbPushAppendsOneByte :
    (loaded full).ilen = config.ibufMax ∧ ((loaded []).ilen < config.ibufMax ∧ (loaded []).inputIs []) ∧
    ((loaded (full.take 31)).ilen < config.ibufMax ∧ (loaded (full.take 31)).inputIs (full.take 31)) :=
  ⟨by decide, ⟨by decide, loaded_inputIs (by decide)⟩, by decide, loaded_inputIs (by decide)⟩

/-- RegisterOperationsFrame, TvalidMeansAValidatedResponse: each instruction named goes on, CRC.BUF and DEC.RESP on a
full and a right buffer. -/
theorem witness_RegisterOperationsFrame :
    (∃ t, exec .crcInit State.reset = .next t) ∧ (∃ t, exec (.crcByte 0xFF) State.reset = .next t) ∧
    (∃ t, exec .crcBuf (loaded full) = .next t) ∧ (∃ t, exec .packF32 State.reset = .next t) ∧
    (∃ t, exec (.setOpa 0xFFFFFFFF) State.reset = .next t) ∧ (∃ t, exec .ibClr (loaded full) = .next t) ∧
    ∃ t, exec .decResp (loaded v27) = .next t := by
  refine ⟨⟨_, rfl⟩, ⟨_, rfl⟩, ?_, ⟨_, rfl⟩, ⟨_, rfl⟩, ⟨_, rfl⟩, ⟨_, accepted_step⟩⟩
  rcases execCrcBuf_cases (loaded full) with ⟨d, _, h⟩ | ⟨h, _⟩
  · exact ⟨_, h⟩
  · rw [memRead_input (loaded_inputIs (by decide))] at h; cases h

/-- StoringOperationsFrame: the fixed frames; ENC.FRAME on too short and on the longest body; IB.PUSH into the last
free byte and into a full buffer. -/
theorem witness_StoringOperationsFrame :
    (∃ t, exec .encEnable State.reset = .next t) ∧ (∃ t, exec .encMove State.reset = .next t) ∧
    ((loaded [0x01, 0x64]).ilen < 3 ∧ ∃ t, exec .encFrame (loaded [0x01, 0x64]) = .next t) ∧
    (∃ t, exec .encFrame (loaded full) = .next t) ∧ (∃ t, exec (.ibPush 0xAA) (loaded (full.take 31)) = .next t) ∧
    ((loaded full).ilen = config.ibufMax ∧ ∃ t, exec (.ibPush 0xAA) (loaded full) = .next t) := by
  refine ⟨⟨_, exec_encEnable _⟩, ⟨_, exec_encMove _⟩, ⟨by decide, _, rfl⟩, ?_, ⟨_, rfl⟩, by decide, _, rfl⟩
  rcases execEncFrame_cases (loaded full) with ⟨h, _⟩ | ⟨_, b, _, _, h⟩ | ⟨_, h, _⟩
  · exact absurd h (by decide)
  · exact ⟨_, h⟩
  · rw [memRead_input (loaded_inputIs (by decide))] at h; cases h

/-- ErrorsArePrecise: an error of DEC.RESP and one of another operation. -/
theorem witness_ErrorsArePrecise :
    (∃ t, exec .encFrame (loaded [0x01, 0x64]) = .next t ∧ t.err ≠ .none) ∧
    ∃ t, exec .decResp (loaded v35) = .next t ∧ t.err ≠ .none :=
  ⟨⟨_, rfl, by decide⟩, _, rfl, by decide⟩

/-- ErrorCodesNameTheirCauses: a step that ends with each code. -/
theorem witness_ErrorCodesNameTheirCauses :
    (presenting 0x0000000000 State.reset).inbox = .present (.word 0x0000000000) :: [] ∧
    see State.err (step (presenting 0x0000000000 State.reset)) = some .illegalOp ∧
    see State.err (step (presenting 0x2000000000 (loaded (v27.take 18)))) = some .badLength ∧
    see State.err (step (presenting 0x2000000000 (loaded v35))) = some .badFunction ∧
    see State.err (step (presenting 0x1200000000 (loaded [0x01, 0x64]))) = some .badOperand ∧
    see State.err (step (presenting 0x41000000AA (loaded full))) = some .badOperand ∧
    see State.err (step (presenting 0x41000000AA (loaded (full.take 31)))) = some .none := by
  decide +kernel

theorem witness_NoErrorIsSticky :
    (presenting 0x0100000000 State.reset).inbox = .present (.word 0x0100000000) :: [] := rfl

/-- IllegalWordsChangeOnlyErr: an undefined code, and must-be-zero bits of both formats. -/
theorem witness_IllegalWordsChangeOnlyErr :
    (presenting 0x0000000000 State.reset).inbox = .present (.word 0x0000000000) :: [] ∧
    (¬∃ i, decodeWord 0x0000000000 = .ok i) ∧ (¬∃ i, decodeWord 0x1100000001 = .ok i) ∧
    (¬∃ i, decodeWord 0x4100000100 = .ok i) ∧ ¬∃ i, decodeWord 0x4300000000 = .ok i := by
  have no : ∀ {w : OpWord} {e : DecodeError}, decodeWord w = .error e → ¬∃ i, decodeWord w = .ok i := by
    rintro w e h ⟨i, hi⟩
    cases h.symm.trans hi
  exact ⟨rfl, no (e := .undefinedOp 0x00) (by decide), no (e := .mustBeZero 0x11 1) (by decide),
    no (e := .mustBeZero 0x41 0x100) (by decide), no (e := .undefinedOp 0x43) (by decide)⟩

/-- DecodeOfEncodeIsTheInstruction: the one check that can fail, met (V15), and a full byte operand. -/
theorem witness_DecodeOfEncodeIsTheInstruction :
    (Instr.wireMove 10000 0xDAB1).wellFormed = true ∧ (Instr.ibPush 0xFF).wellFormed = true := by decide +kernel

/-- EveryEncodingIsTheOnlyOne: a word and a frame that decode. -/
theorem witness_EveryEncodingIsTheOnlyOne :
    decode (.word 0x41000000FF) = .ok (.ibPush 0xFF) ∧
    decode (.frame v27) = .ok (.wireResponse 0x01 10000 (pattern (-1500)) 12 37 24050 0 0x2C3E) ∧
    decodeWord 0x42FFFFFFFF = .ok (.setOpa 0xFFFFFFFF) := by decide +kernel

/-- WordsDecodeByMatchAndMask: both directions, at the last value of each format's operand. -/
theorem witness_WordsDecodeByMatchAndMask :
    decodeWord 0x42FFFFFFFF = .ok (.setOpa 0xFFFFFFFF) ∧
    (rowOf (.ibPush 0) = some (0x4100000000, 0xFFFFFFFF00) ∧
      (0x41000000FF : OpWord) &&& 0xFFFFFFFF00 = 0x4100000000) := by decide

theorem witness_StepRunsThePresentedInstruction :
    (presenting 0x4200002710 State.reset).inbox = .present (.word 0x4200002710) :: [] ∧
    decode (.word 0x4200002710) = .ok (.setOpa 10000) := by decide

theorem witness_IdleBlockHoldsItsState : (loaded v27).inbox = [] := rfl

theorem witness_ResetEventRestoresTheResetValues : ∃ s : State, s.inbox = .reset :: [] ∧ s.ilen = 19 :=
  ⟨{ loaded v27 with inbox := [.reset] }, rfl, rfl⟩

/-- EveryStepKeepsTheInvariant: an idle step, a reset, an illegal word and an operation. -/
theorem witness_EveryStepKeepsTheInvariant :
    (accepted.Inv ∧ ∃ t, step accepted = .next t) ∧
    ((presenting 0x0000000000 accepted).Inv ∧ ∃ t, step (presenting 0x0000000000 accepted) = .next t) ∧
    ((presenting 0x2000000000 (loaded v27)).Inv ∧ ∃ t, step (presenting 0x2000000000 (loaded v27)) = .next t) :=
  ⟨⟨accepted_inv, _, rfl⟩, ⟨presenting_inv accepted_inv, _, rfl⟩,
    presenting_inv (loaded_inv (by decide)), _, rfl⟩

/-- TheBlockNeverStops: nothing presented, a word, a reset; and an operation. -/
theorem witness_TheBlockNeverStops :
    (accepted.Inv ∧ ∀ e, accepted.inbox.head? = some e → e.isWord) ∧
    ((presenting 0xFF00000000 accepted).Inv ∧
      ∀ e, (presenting 0xFF00000000 accepted).inbox.head? = some e → e.isWord) ∧
    ((loaded full).Inv ∧ Instr.encFrame.isOperation = true) := by
  refine ⟨⟨accepted_inv, fun e h => by cases h⟩, ⟨presenting_inv accepted_inv, fun e h => ?_⟩,
    loaded_inv (by decide), rfl⟩
  cases h
  exact True.intro

/-- StateChangesOnlyByItsWriters: each piece of state, changed by an operation that may. -/
theorem witness_StateChangesOnlyByItsWriters :
    (∃ t, exec (.crcByte 0x01) State.reset = .next t ∧ t.acc ≠ State.reset.acc) ∧
    (∃ t, exec (.setOpa 1) State.reset = .next t ∧ t.opa ≠ State.reset.opa) ∧
    (∃ t, exec .packF32 { State.reset with opa := 0x12345678 } = .next t ∧ t.w0 ≠ State.reset.w0 ∧
      t.w1 ≠ State.reset.w1) ∧
    (∃ t, exec .decResp (loaded v27) = .next t ∧ t.telemetry ≠ (loaded v27).telemetry ∧
      t.tvalid ≠ (loaded v27).tvalid) ∧
    (∃ t, exec (.ibPush 0x01) State.reset = .next t ∧ t.ilen ≠ State.reset.ilen ∧ t.ibuf ≠ State.reset.ibuf) ∧
    ∃ t, exec .encMove State.reset = .next t ∧ t.olen ≠ State.reset.olen :=
  ⟨⟨_, rfl, by decide⟩, ⟨_, rfl, by decide⟩, ⟨_, rfl, by decide⟩, ⟨_, accepted_step, by decide⟩, ⟨_, rfl, by decide⟩,
    _, exec_encMove _, by decide⟩

/-- TvalidMeansAValidatedResponse: another operation; a DEC.RESP that succeeds, with its bytes; one that fails. -/
theorem witness_TvalidMeansAValidatedResponse :
    (∃ t, exec .ibClr accepted = .next t) ∧
    (exec .decResp (loaded v27) = .next accepted ∧ accepted.tvalid = true ∧ (loaded v27).inputIs v27) ∧
    ∃ t, exec .decResp (loaded v35) = .next t ∧ t.tvalid = false :=
  ⟨⟨_, rfl⟩, ⟨accepted_step, rfl, loaded_inputIs (by decide)⟩, _, rfl, rfl⟩

/-- BuiltFrameChangesOnlyBySuccessfulEnc: an ENC operation that succeeds, from its word. -/
theorem witness_BuiltFrameChangesOnlyBySuccessfulEnc :
    (presenting 0x1100000000 State.reset).inbox = .present (.word 0x1100000000) :: [] ∧
    decodeWord 0x1100000000 = .ok .encMove ∧
    see (fun t => (t.olen, t.err)) (step (presenting 0x1100000000 State.reset)) = some (9, .none) := by
  decide +kernel

/-- HostReadsAreGuarded: each guard on both sides, at the length itself and one below. -/
theorem witness_HostReadsAreGuarded :
    (loaded v27).tvalid = false ∧ accepted.tvalid = true ∧ accepted.bufferLen .ibuf ≤ 19 ∧
    (accepted.Inv ∧ 18 < accepted.bufferLen .ibuf) ∧ (loaded (v27.take 18)).ilen ≠ 19 :=
  ⟨rfl, rfl, by decide, ⟨accepted_inv, by decide⟩, by decide⟩

/-- NothingHiddenCanBeObserved: two states that differ in a byte at the length and in telemetry that is not valid. -/
theorem witness_NothingHiddenCanBeObserved : ∃ s t : State, s.Alike t ∧ s ≠ t := by
  refine ⟨loaded v27, { loaded v27 with
    ibuf := Memory.write (loaded v27).ibuf 19 0xAA, telemetry := ⟨1, 1, 1, 1, 1, 1⟩ }, ?_, by decide⟩
  refine ⟨rfl, rfl, rfl, rfl, rfl, rfl, fun h => (by cases h), rfl, rfl, fun a ha => ?_, fun _ _ => rfl, rfl⟩
  have ha' : a ≠ 19 := Nat.ne_of_lt (show a < 19 from ha)
  exact (Memory.read_write_other _ _ _ ha').symm

/-- TwoWaysOfSummingAgree: no bytes and the most. -/
theorem witness_TwoWaysOfSummingAgree : ([] : List Byte).length ≤ config.ibufMax ∧ full.length ≤ config.ibufMax := by
  decide

/-- LoadedBytesDecodeAsTheSourceSays: one short, one long, over capacity, a wrong and a right byte 1. -/
theorem witness_LoadedBytesDecodeAsTheSourceSays :
    (v27.take 18).length ≠ 19 ∧ (v27 ++ [0x00]).length ≠ 19 ∧ (full ++ [0xAA]).length ≠ 19 ∧
    (v35.length = 19 ∧ v35[1]? ≠ some 0x64) ∧ (v27.length = 19 ∧ v27[1]? = some 0x64) := by decide

end Sys2Proof.Tests
end

section
/-! SUPPORT. The decoder undoes the encoder on every row of the table; the step, one equation per thing the host can
do; the configuration's constants. -/

namespace Sys2Proof

open Machine

/-- A byte operand survives format B. -/
@[simp] theorem formatB_byteImm (f : Byte → Instr) (op : Byte) (b : Byte) : formatB f op (byteImm b) = .ok (f b) := by
  simp [formatB]

/-- The nine bytes of any position and any CRC field are read as the move layout: its third byte is not the enable
frame's. -/
theorem decode_encode_wireMove (position : Word) (crc : Half) :
    decode (encode (.wireMove position crc)) = .ok (.wireMove position crc) := by
  have hne : moveBody position ++ le16Pack crc ≠ buildFrame enableBody := by
    simp [moveBody, enableBody, buildFrame]
  have hread : decode (encode (.wireMove position crc)) =
      readCommandLayout config.addr config.cmd config.subMove (byteOf position 3) (byteOf position 2)
        (byteOf position 1) (byteOf position 0) (byteOf crc 0) (byteOf crc 1) := rfl
  rw [hread, readCommandLayout]
  refine (if_neg hne).trans ?_
  simp

/-- The nineteen bytes of any fields are read as the response layout with those fields (R57). -/
theorem decode_encode_wireResponse (address : Byte) (position force : Word) (power : Half) (temp : Byte)
    (volt errs crc : Half) :
    decode (encode (.wireResponse address position force power temp volt errs crc)) =
      .ok (.wireResponse address position force power temp volt errs crc) := by
  simp [encode, decode, decodeFrame, readResponseLayout, be32Pack, be16Bytes, le16Pack]

/-- Decoding an encoding gives the instruction back; a move layout needs no right CRC for it. -/
theorem decode_encode (i : Instr) : decode (encode i) = .ok i := by
  cases i with
  | crcInit | crcBuf | encEnable | encMove | encFrame | decResp | packF32 | ibClr => rfl
  | crcByte b | ibPush b => simp [encode, decode, decodeFields]
  | setOpa w => simp [encode, decode, decodeFields, formatW]
  | wireEnable => decide +kernel
  | wireMove position crc => exact decode_encode_wireMove position crc
  | wireResponse address position force power temp volt errs crc =>
    exact decode_encode_wireResponse address position force power temp volt errs crc

/-- What an operation word decodes to is an operation, never a wire layout. -/
theorem isOperation_of_decodeWord {w : OpWord} {i : Instr} (h : decodeWord w = .ok i) : i.isOperation = true := by
  rcases decodeFields_cases h with ⟨rfl, _⟩ | ⟨b, rfl, _⟩ | ⟨rfl, _⟩ | ⟨rfl, _⟩ | ⟨rfl, _⟩ | ⟨rfl, _⟩ | ⟨rfl, _⟩ |
    ⟨rfl, _⟩ | ⟨rfl, _⟩ | ⟨b, rfl, _⟩ | ⟨w, rfl, _⟩ <;> rfl

end Sys2Proof

namespace Sys2Proof.Machine

/-- Nothing presented: the block is idle (R133). -/
theorem step_of_inbox_nil {s : State} (h : s.inbox = []) : step s = .next s := by
  simp only [step, takeEvent, h]

/-- A reset event. -/
theorem step_of_reset {s : State} {rest : List HostEvent} (h : s.inbox = .reset :: rest) :
    step s = .next { State.reset with inbox := rest } := by
  simp only [step, takeEvent, h, applyReset]

/-- A presentation that decodes: the operation, in the state with that presentation taken (R9). -/
theorem step_of_decode_ok {s : State} {e : Encoded} {rest : List HostEvent} {i : Instr}
    (h : s.inbox = .present e :: rest) (hd : decode e = .ok i) : step s = exec i { s with inbox := rest } := by
  simp only [step, takeEvent, h, hd]

/-- An operation word that names no operation ends with IllegalOp and changes nothing else (R53). -/
theorem step_of_decodeWord_error {s : State} {w : OpWord} {rest : List HostEvent} {e : DecodeError}
    (h : s.inbox = .present (.word w) :: rest) (hd : decodeWord w = .error e) :
    step s = .next { s with inbox := rest, err := .illegalOp } := by
  simp only [step, takeEvent, h, decode, hd, rejectPresented, raiseIllegalOp, raiseError]

/-- Settles O40: it is the step's equation for a presentation that decodes. -/
theorem stepRunsThePresentedInstruction : Obligations.StepRunsThePresentedInstruction :=
  fun _ _ _ _ => step_of_decode_ok

/-- Settles O1: each constant by its own law of the configuration record. -/
theorem constantsAreTheSpecs : Obligations.ConstantsAreTheSpecs :=
  ⟨config_addr, config_cmd, config_subEnable, config_enablePayload, config_subMove, config_respLen, config_fnExpect,
    config_crcInit, config_crcPoly, config_crcRounds, rfl, rfl, rfl, config_ibufMax,
    config_obufMax, config_bodyMin, config_legal⟩

end Sys2Proof.Machine
end

section
/-! SUPPORT. The invariant of the block, per update an operation makes, and that each of the eleven operations
completes and keeps it. -/

namespace Sys2Proof.Machine

/-- Writing below the capacity leaves a buffer within it. -/
theorem Memory.within_writeBytes {m : Memory} {k n : Nat} {bs : List Byte} (h : Memory.within m n)
    (hfit : k + bs.length ≤ n) : Memory.within (Memory.writeBytes m k bs) n := by
  intro a ha
  rw [Memory.read_writeBytes, if_neg (by omega)]
  exact h a ha

/-- A byte sequence written at the end of the filled part fills its own indices too. -/
theorem Memory.filled_writeBytes {m : Memory} {k : Nat} (bs : List Byte) (h : Memory.filled m k) :
    Memory.filled (Memory.writeBytes m k bs) (k + bs.length) := by
  intro a ha
  rw [Memory.read_writeBytes]
  by_cases hk : k ≤ a
  · rw [if_pos ⟨hk, ha⟩, List.getElem?_eq_getElem (by omega)]
    rfl
  · rw [if_neg (by omega)]
    exact h a (by omega)

/-- The invariant speaks of the two buffers and their lengths alone. -/
theorem State.Inv.of_same_buffers {s t : State} (h : s.Inv) (hilen : t.ilen = s.ilen) (holen : t.olen = s.olen)
    (hibuf : t.ibuf = s.ibuf) (hobuf : t.obuf = s.obuf) : t.Inv := by
  obtain ⟨hib, hos, hiw, how, hic, hoc, hif, hof⟩ := h
  constructor <;> simpa only [hilen, holen, hibuf, hobuf]

theorem State.reset_inv : State.reset.Inv where
  ilenBound := Nat.zero_le _
  olenShape := .inl rfl
  ibufWf := Memory.nil_wf
  obufWf := Memory.nil_wf
  ibufWithin := fun _ _ => rfl
  obufWithin := fun _ _ => rfl
  ibufFilled := fun a ha => absurd ha a.not_lt_zero
  obufFilled := fun a ha => absurd ha a.not_lt_zero

/-- Emptying the input keeps the invariant: the bytes left behind are still within the buffer. -/
theorem State.Inv.clear_input {s : State} (h : s.Inv) : State.Inv { s with ilen := 0, err := .none } :=
  { h with ilenBound := Nat.zero_le _, ibufFilled := fun a ha => absurd ha a.not_lt_zero }

/-- A byte appended where there is room keeps the invariant (R28's bound on `ILEN`). -/
theorem State.Inv.push_input {s : State} (h : s.Inv) (hroom : s.ilen < 32) (b : Byte) :
    State.Inv { s with ibuf := Memory.write s.ibuf s.ilen b, ilen := s.ilen + 1, err := .none } :=
  { h with
    ilenBound := hroom
    ibufWf := Memory.write_wf h.ibufWf s.ilen b
    ibufWithin := Memory.within_writeBytes (bs := [b]) h.ibufWithin hroom
    ibufFilled := Memory.filled_writeBytes [b] h.ibufFilled }

/-- A framed body of a legal length keeps the invariant (R28's lengths of a built frame). -/
theorem State.Inv.emit_frame {s : State} (h : s.Inv) {body : List Byte} (hmin : 3 ≤ body.length)
    (hmax : body.length ≤ 32) :
    State.Inv { s with
      obuf := Memory.writeBytes s.obuf 0 (buildFrame body), olen := body.length + 2, acc := crc16 body,
      err := .none } :=
  { h with
    olenShape := .inr (.inr ⟨Nat.add_le_add_right hmin 2, Nat.add_le_add_right hmax 2⟩)
    obufWf := Memory.writeBytes_wf h.obufWf 0 _
    obufWithin := Memory.within_writeBytes h.obufWithin (by simp; omega)
    obufFilled := by
      have hfill := Memory.filled_writeBytes (m := s.obuf) (k := 0) (buildFrame body) fun a ha => absurd ha a.not_lt_zero
      simpa using hfill }

/-- CRC.BUF reads bytes the invariant says are there. -/
theorem execCrcBuf_keeps_inv {s : State} (h : s.Inv) : ∃ t, execCrcBuf s = .next t ∧ t.Inv := by
  obtain ⟨data, hdata⟩ := h.input
  rcases execCrcBuf_cases s with ⟨data, _, hs⟩ | ⟨hnone, _⟩
  · exact ⟨_, hs, h.of_same_buffers rfl rfl rfl rfl⟩
  · cases hnone.symm.trans (memRead_input hdata)

/-- ENC.FRAME rejects a short body, and what it frames fits: `IBUF_MAX + 2` bytes at the most. -/
theorem execEncFrame_keeps_inv {s : State} (h : s.Inv) : ∃ t, execEncFrame s = .next t ∧ t.Inv := by
  obtain ⟨data, hdata⟩ := h.input
  rcases execEncFrame_cases s with ⟨_, hs⟩ | ⟨hmin, body, _, hlen, hs⟩ | ⟨_, hnone, _⟩
  · exact ⟨_, hs, h.of_same_buffers rfl rfl rfl rfl⟩
  · have hinv := h.emit_frame (hlen.symm ▸ hmin) (hlen.symm ▸ h.ilenBound)
    exact ⟨_, hs, hinv.of_same_buffers rfl (by rw [hlen]) rfl rfl⟩
  · cases hnone.symm.trans (memRead_input hdata)

/-- IB.PUSH drops the byte where the buffer is full; the invariant excludes an `ILEN` above that. -/
theorem execIbPush_keeps_inv {s : State} (h : s.Inv) (b : Byte) : ∃ t, execIbPush b s = .next t ∧ t.Inv := by
  rcases execIbPush_cases b s with ⟨_, hs⟩ | ⟨hroom, hs⟩ | ⟨hover, _⟩
  · exact ⟨_, hs, h.of_same_buffers rfl rfl rfl rfl⟩
  · exact ⟨_, hs, h.push_input hroom b⟩
  · exact absurd h.ilenBound (Nat.not_le.mpr hover)

/-- DEC.RESP has its 19 bytes once the length is right, so that byte 1 and the fields can be read. -/
theorem execDecResp_keeps_inv {s : State} (h : s.Inv) : ∃ t, execDecResp s = .next t ∧ t.Inv := by
  rcases execDecResp_cases s with ⟨_, hs⟩ | ⟨_, _, _, _, hs⟩ | ⟨_, _, _, _, _, _, hs⟩ | ⟨hlen, hunread, _⟩
  · exact ⟨_, hs, h.of_same_buffers rfl rfl rfl rfl⟩
  · exact ⟨_, hs, h.of_same_buffers rfl rfl rfl rfl⟩
  · exact ⟨_, hs, h.of_same_buffers rfl rfl rfl rfl⟩
  · obtain ⟨f, hf⟩ := h.input
    have hfields : ((f.drop 2).take 15).length = 15 := by simp [hf.length, hlen]
    obtain ⟨t, ht⟩ := unpackFields_total hfields
    rcases hunread with hbyte | hrecord
    · have hsome := h.ibufFilled 1 (by omega)
      simp [hbyte] at hsome
    · simp [memRead_fields hf hlen, ht] at hrecord

/-- Each of the eleven operations completes from a state that meets the invariant, and keeps it. -/
theorem exec_keeps_inv {i : Instr} {s : State} (hop : i.isOperation = true) (h : s.Inv) :
    ∃ t, exec i s = .next t ∧ t.Inv := by
  cases i with
  | crcInit | crcByte b | packF32 | setOpa w => exact ⟨_, rfl, h.of_same_buffers rfl rfl rfl rfl⟩
  | crcBuf => exact execCrcBuf_keeps_inv h
  | encEnable => exact ⟨_, exec_encEnable s, h.emit_frame (body := enableBody) (by decide) (by decide)⟩
  | encMove =>
    have hlen : (moveBody s.opa).length = 7 := moveBody_length s.opa
    exact ⟨_, exec_encMove s, h.emit_frame (body := moveBody s.opa) (by omega) (by omega)⟩
  | encFrame => exact execEncFrame_keeps_inv h
  | decResp => exact execDecResp_keeps_inv h
  | ibClr => exact ⟨_, rfl, h.clear_input⟩
  | ibPush b => exact execIbPush_keeps_inv h b
  | wireEnable | wireMove _ _ | wireResponse _ _ _ _ _ _ _ _ => cases hop

/-- Whatever word the host presents, a legal one or not, the step completes and keeps the invariant. -/
theorem step_word_keeps_inv {s : State} {w : OpWord} {rest : List HostEvent} (h : s.Inv)
    (hin : s.inbox = .present (.word w) :: rest) : ∃ t, step s = .next t ∧ t.Inv := by
  cases hd : decodeWord w with
  | error e => exact ⟨_, step_of_decodeWord_error hin hd, h.of_same_buffers rfl rfl rfl rfl⟩
  | ok i =>
    rw [step_of_decode_ok hin hd]
    exact exec_keeps_inv (isOperation_of_decodeWord hd) (h.of_same_buffers rfl rfl rfl rfl)

/-- Settles O46: the invariant gives every read its bytes and every write its room, by cases on what the host presents
and, for a legal word, on the operation. -/
theorem theBlockNeverStops : Obligations.TheBlockNeverStops := by
  refine ⟨fun s h hword => ?_, fun i s hop h => ?_⟩
  · cases hin : s.inbox with
    | nil => exact ⟨s, step_of_inbox_nil hin, h⟩
    | cons ev rest =>
      have hev : ev.isWord := hword ev (by simp [hin])
      match ev with
      | .reset => exact ⟨_, step_of_reset hin, State.reset_inv.of_same_buffers rfl rfl rfl rfl⟩
      | .present (.word w) => exact step_word_keeps_inv h hin
      | .present (.frame bytes) => exact hev.elim
  · obtain ⟨t, ht, _⟩ := exec_keeps_inv hop h
    exact ⟨t, ht⟩

end Sys2Proof.Machine
end

section
/-! SUPPORT. The CRC unit and the reference of spec/90_conflicts.md C9: the reference keeps the mirror image of the
accumulator, after every round and so after every byte. -/

namespace Sys2Proof.Machine

theorem reverse_xor {n : Nat} (x y : BitVec n) : (x ^^^ y).reverse = x.reverse ^^^ y.reverse := by
  ext i hi
  simp [BitVec.getElem_reverse]

theorem reverse_ushiftRight {n : Nat} (x : BitVec n) (k : Nat) : (x >>> k).reverse = x.reverse <<< k := by
  ext i hi
  simp [BitVec.getElem_reverse, BitVec.getMsbD_ushiftRight, hi]

/-- A byte below a zero byte mirrors to the mirrored byte above one. -/
theorem reverse_setWidth_byte (b : Byte) : (b.setWidth 16).reverse = (b.reverse ++ (0 : Byte) : Half) := by
  have hlow : (b.setWidth 16 : Half) = (0 : Byte) ++ b := by
    rw [BitVec.setWidth_eq_append (by omega)]
    rfl
  rw [hlow, BitVec.reverse_append]
  rfl

/-- The bit tested, the shift and the constant are each the other's mirror image. -/
theorem refRound_reverse (a : Half) : refRound a.reverse = (crcRound a).reverse := by
  have hbit : a.reverse.getLsbD 15 = a.getLsbD 0 := by
    rw [BitVec.getLsbD_reverse, BitVec.getMsbD_eq_getLsbD]
    rfl
  have hconst : (0x8005 : Half) = config.crcPoly.reverse := by decide
  unfold refRound crcRound
  rw [hbit, apply_ite BitVec.reverse, reverse_xor, reverse_ushiftRight, hconst]

theorem refByte_reverse (a : Half) (b : Byte) : refByte a.reverse b = (crcByte a b).reverse := by
  simp only [refByte, ← reverse_setWidth_byte, ← reverse_xor, refRound_reverse]
  rfl

theorem foldl_refByte_reverse (a : Half) (data : List Byte) :
    data.foldl refByte a.reverse = (crcFold a data).reverse := by
  induction data generalizing a with
  | nil => rfl
  | cons b bs ih => rw [List.foldl_cons, refByte_reverse, ih, crcFold]

/-- Settles O8: the initial value is its own mirror image, and the reference mirrors its accumulator at the end. -/
theorem crcEqualsMsbFirstReference : Obligations.CrcEqualsMsbFirstReference := by
  intro data
  have hinit : (0xFFFF : Half) = config.crcInit.reverse := by decide
  rw [refCrc, hinit, foldl_refByte_reverse, BitVec.reverse_reverse_eq, crc16]

end Sys2Proof.Machine
end

section
/-! SUPPORT. Operations presented one after another: none looks at what the host presents later, so a run of the block
is the list of operations executed in order. -/

namespace Sys2Proof.Machine

@[simp] theorem memRead_with_inbox (sp : Space) (addr n : Nat) (s : State) (l : List HostEvent) :
    memRead sp addr n { s with inbox := l } = memRead sp addr n s := by
  cases sp <;> rfl

theorem memWrite_with_inbox (sp : Space) (addr : Nat) (v : List Byte) (s : State) (l : List HostEvent) :
    memWrite sp addr v { s with inbox := l } = (memWrite sp addr v s).map fun t => { t with inbox := l } := by
  unfold memWrite
  split
  · cases sp <;> rfl
  · rfl

/-- The common end of the ENC operations does not look at what is presented later. -/
theorem emitFrame_with_inbox (body : List Byte) (s : State) (l : List HostEvent) :
    emitFrame body { s with inbox := l } = mapOutcome (fun t => { t with inbox := l }) (emitFrame body s) := by
  simp only [emitFrame, memWrite_with_inbox]
  cases memWrite .obuf 0 (buildFrame body) s <;> rfl

/-- No instruction looks at what the host presents later, and each leaves it as it is. -/
theorem exec_with_inbox (i : Instr) (s : State) (l : List HostEvent) :
    exec i { s with inbox := l } = mapOutcome (fun t => { t with inbox := l }) (exec i s) := by
  cases i with
  | crcInit | crcByte b | packF32 | ibClr | setOpa w | wireEnable | wireMove _ _ | wireResponse _ _ _ _ _ _ _ _ => rfl
  | encEnable => exact emitFrame_with_inbox enableBody s l
  | encMove => exact emitFrame_with_inbox (moveBody s.opa) s l
  | crcBuf =>
    simp only [exec, execCrcBuf, memRead_with_inbox]
    cases memRead .ibuf 0 s.ilen s <;> rfl
  | encFrame =>
    simp only [exec, execEncFrame, memRead_with_inbox]
    split
    · rfl
    · cases memRead .ibuf 0 s.ilen s with
      | none => rfl
      | some body => exact emitFrame_with_inbox body s l
  | decResp =>
    simp only [exec, execDecResp, unpackResponse, memRead_with_inbox]
    split
    · rfl
    · split
      · split
        · rfl
        · cases (memRead .ibuf 2 15 s).bind unpackFields <;> rfl
      · rfl
  | ibPush b =>
    simp only [exec, execIbPush, memWrite_with_inbox]
    split
    · rfl
    · cases memWrite .ibuf s.ilen [b] s <;> rfl

/-- A run over presented operations is their execution one after another. -/
theorem run_presentAll (is : List Instr) (s : State) (rest : List HostEvent) :
    Host.Core.run core is.length { s with inbox := presentAll is ++ rest } = execAll is { s with inbox := rest } := by
  induction is generalizing s with
  | nil => rfl
  | cons i is ih =>
    have hstep : step { s with inbox := presentAll (i :: is) ++ rest } =
        exec i { s with inbox := presentAll is ++ rest } := step_of_decode_ok rfl (decode_encode i)
    rw [exec_with_inbox] at hstep
    rw [execAll, exec_with_inbox, List.length_cons]
    cases hi : exec i s with
    | next t =>
      rw [hi] at hstep
      exact (run_next hstep).trans (ih t)
    | fault f =>
      rw [hi] at hstep
      exact run_fault hstep
    | refused r =>
      rw [hi] at hstep
      exact run_refused hstep

/-- Settles O52, by induction on the list of operations. -/
theorem presentedOperationsRunInOrder : Obligations.PresentedOperationsRunInOrder :=
  ⟨exec_with_inbox, run_presentAll⟩

end Sys2Proof.Machine
end

section
/-! SUPPORT. What an instruction that goes on has done, said once for all of them; from it the invariant of a step, the
frames, and the writers of each piece of state. -/

namespace Sys2Proof.Machine

/-- Each way an instruction can go on, with the next state spelled out: what is not listed is as it was. -/
inductive Effect (s : State) : Instr → State → Prop
  | crcInit : Effect s .crcInit { s with acc := 0xFFFF, err := .none }
  | crcByte (b : Byte) : Effect s (.crcByte b) { s with acc := Machine.crcByte s.acc b, err := .none }
  | crcBuf {data : List Byte} (hinput : s.inputIs data) :
      Effect s .crcBuf { s with acc := crc16 data, err := .none }
  | encEnable : Effect s .encEnable { s with
      obuf := Memory.writeBytes s.obuf 0 (buildFrame enableBody), olen := 9, acc := crc16 enableBody, err := .none }
  | encMove : Effect s .encMove { s with
      obuf := Memory.writeBytes s.obuf 0 (buildFrame (moveBody s.opa)), olen := 9, acc := crc16 (moveBody s.opa),
      err := .none }
  | encFrameShort (hshort : s.ilen < 3) : Effect s .encFrame { s with err := .badOperand }
  | encFrame {body : List Byte} (hmin : 3 ≤ s.ilen) (hinput : s.inputIs body) : Effect s .encFrame { s with
      obuf := Memory.writeBytes s.obuf 0 (buildFrame body), olen := s.ilen + 2, acc := crc16 body, err := .none }
  | decRespLength (hlen : s.ilen ≠ 19) : Effect s .decResp { s with tvalid := false, err := .badLength }
  | decRespFunction {fn : Byte} (hlen : s.ilen = 19) (hread : Memory.read s.ibuf 1 = some fn) (hfn : fn ≠ 0x64) :
      Effect s .decResp { s with tvalid := false, err := .badFunction }
  | decRespAccept {bs : List Byte} {record : Telemetry} (hlen : s.ilen = 19)
      (hread : Memory.read s.ibuf 1 = some 0x64) (hbytes : memRead .ibuf 2 15 s = some bs)
      (hrecord : unpackFields bs = some record) :
      Effect s .decResp { s with telemetry := record, tvalid := true, err := .none }
  | packF32 : Effect s .packF32 { s with w0 := (f32Words s.opa).1, w1 := (f32Words s.opa).2, err := .none }
  | ibClr : Effect s .ibClr { s with ilen := 0, err := .none }
  | ibPushFull (b : Byte) (hfull : s.ilen = 32) : Effect s (.ibPush b) { s with err := .badOperand }
  | ibPush (b : Byte) (hroom : s.ilen < 32) : Effect s (.ibPush b) { s with
      ibuf := Memory.write s.ibuf s.ilen b, ilen := s.ilen + 1, err := .none }
  | setOpa (w : Word) : Effect s (.setOpa w) { s with opa := w, err := .none }

/-- An instruction that goes on has had one of its effects. -/
theorem exec_effect {i : Instr} {s t : State} (h : exec i s = .next t) : Effect s i t := by
  cases i with
  | crcInit => exact next_inj h ▸ .crcInit
  | crcByte b => exact next_inj h ▸ .crcByte b
  | packF32 => exact next_inj h ▸ .packF32
  | ibClr => exact next_inj h ▸ .ibClr
  | setOpa w => exact next_inj h ▸ .setOpa w
  | encEnable => exact next_inj ((exec_encEnable s).symm.trans h) ▸ .encEnable
  | encMove => exact next_inj ((exec_encMove s).symm.trans h) ▸ .encMove
  | crcBuf =>
    rcases execCrcBuf_cases s with ⟨data, hread, hs⟩ | ⟨_, hs⟩
    · exact next_inj (hs.symm.trans h) ▸ .crcBuf (inputIs_of_memRead hread)
    · cases hs.symm.trans h
  | encFrame =>
    rcases execEncFrame_cases s with ⟨hshort, hs⟩ | ⟨hmin, body, hread, _, hs⟩ | ⟨_, _, hs⟩
    · exact next_inj (hs.symm.trans h) ▸ .encFrameShort hshort
    · exact next_inj (hs.symm.trans h) ▸ .encFrame hmin (inputIs_of_memRead hread)
    · cases hs.symm.trans h
  | decResp =>
    rcases execDecResp_cases s with ⟨hlen, hs⟩ | ⟨hlen, fn, hread, hfn, hs⟩ |
      ⟨hlen, hread, bs, record, hbytes, hrecord, hs⟩ | ⟨_, _, hs⟩
    · exact next_inj (hs.symm.trans h) ▸ .decRespLength hlen
    · exact next_inj (hs.symm.trans h) ▸ .decRespFunction hlen hread hfn
    · exact next_inj (hs.symm.trans h) ▸ .decRespAccept hlen hread hbytes hrecord
    · cases hs.symm.trans h
  | ibPush b =>
    rcases execIbPush_cases b s with ⟨hfull, hs⟩ | ⟨hroom, hs⟩ | ⟨_, hs⟩
    · exact next_inj (hs.symm.trans h) ▸ .ibPushFull b hfull
    · exact next_inj (hs.symm.trans h) ▸ .ibPush b hroom
    · cases hs.symm.trans h
  | wireEnable | wireMove _ _ | wireResponse _ _ _ _ _ _ _ _ => cases h

/-- A wire layout never goes on. -/
theorem isOperation_of_exec_next {i : Instr} {s t : State} (h : exec i s = .next t) : i.isOperation = true := by
  cases exec_effect h <;> rfl

/-- Settles O45, by the four things a step that goes on can have done. -/
theorem everyStepKeepsTheInvariant : Obligations.EveryStepKeepsTheInvariant := by
  intro s t h hstep
  rcases step_cases hstep with ⟨_, rfl⟩ | ⟨_, _, rfl⟩ | ⟨_, _, _, _, _, rfl⟩ | ⟨_, rest, i, _, _, hexec⟩
  · exact h
  · exact State.reset_inv.of_same_buffers rfl rfl rfl rfl
  · exact h.of_same_buffers rfl rfl rfl rfl
  · have htaken : State.Inv { s with inbox := rest } := h.of_same_buffers rfl rfl rfl rfl
    obtain ⟨u, hu, hinv⟩ := exec_keeps_inv (isOperation_of_exec_next hexec) htaken
    exact next_inj (hu.symm.trans hexec) ▸ hinv

/-- Settles O30: no effect of these operations lists another register or a buffer. -/
theorem registerOperationsFrame : Obligations.RegisterOperationsFrame := by
  intro i s t h
  have heff := exec_effect h
  refine ⟨?_, ?_, ?_, ?_, ?_, ?_⟩
  · rintro (rfl | ⟨b, rfl⟩ | rfl) <;> cases heff <;> rfl
  · rintro rfl
    cases heff
    rfl
  · rintro ⟨w, rfl⟩
    cases heff
    rfl
  · rintro rfl
    cases heff
    rfl
  · rintro rfl
    cases heff <;> rfl
  · rintro (rfl | ⟨b, rfl⟩ | rfl | rfl | ⟨w, rfl⟩ | rfl | rfl) <;> cases heff <;> exact fun _ => ⟨rfl, rfl⟩

/-- A frame built at index 0 leaves every byte beyond its end. -/
theorem Memory.read_writeBytes_buildFrame (m : Memory) {body : List Byte} {n a : Nat} (hlen : body.length + 2 = n)
    (ha : ¬(0 ≤ a ∧ a < 0 + n)) : Memory.read (Memory.writeBytes m 0 (buildFrame body)) a = Memory.read m a := by
  rw [Memory.read_writeBytes, buildFrame_length, hlen, if_neg ha]

/-- Settles O31: the bytes stored are the built frame's, or the one pushed. -/
theorem storingOperationsFrame : Obligations.StoringOperationsFrame := by
  intro i s t h
  have heff := exec_effect h
  refine ⟨?_, ?_, ?_⟩
  · rintro (rfl | rfl) <;> cases heff <;> exact ⟨by simp only, fun _ => Memory.read_writeBytes_buildFrame _ rfl⟩
  · rintro rfl
    cases heff with
    | encFrameShort _ => exact ⟨rfl, fun _ _ => rfl, fun _ _ => rfl⟩
    | encFrame hmin hinput =>
      exact ⟨rfl, fun _ => Memory.read_writeBytes_buildFrame _ (by rw [hinput.length]),
        fun hshort => absurd hshort (Nat.not_lt.mpr hmin)⟩
  · rintro ⟨b, rfl⟩
    cases heff with
    | ibPushFull _ _ => exact ⟨rfl, fun _ _ => rfl, fun _ _ => rfl⟩
    | ibPush _ hroom =>
      exact ⟨rfl, fun _ ha => Memory.read_write_other _ _ _ (by omega),
        fun hfull => absurd hfull (Nat.ne_of_lt hroom)⟩

/-- Settles O47: in each effect, an item that is listed has the instruction among its writers. -/
theorem stateChangesOnlyByItsWriters : Obligations.StateChangesOnlyByItsWriters := by
  intro i s t h
  cases exec_effect h <;> simp

/-- The record DEC.RESP reads from bytes 2 to 16 is the unpacking of the whole 19-byte response (R95). -/
theorem unpackTelemetry_of_memRead {s : State} {f bs : List Byte} {record : Telemetry} (hf : s.inputIs f)
    (hlen : s.ilen = 19) (hbytes : memRead .ibuf 2 15 s = some bs) (hrecord : unpackFields bs = some record) :
    unpackTelemetry f = some record := by
  obtain rfl : (f.drop 2).take 15 = bs := Option.some.inj ((memRead_fields hf hlen).symm.trans hbytes)
  rw [unpackTelemetry, if_pos (hf.length.trans hlen), hrecord]

/-- Settles O48: DEC.RESP's effects set TVALID with a record and ERR 0, or clear it with an error. -/
theorem tvalidMeansAValidatedResponse : Obligations.TvalidMeansAValidatedResponse := by
  intro i s t h
  have heff := exec_effect h
  refine ⟨fun hne => ?_, ?_⟩
  · cases heff with
    | decRespLength _ | decRespFunction _ _ _ | decRespAccept _ _ _ _ => exact absurd rfl hne
    | _ => exact ⟨rfl, rfl⟩
  · rintro rfl
    cases heff with
    | decRespLength _ | decRespFunction _ _ _ => simp
    | decRespAccept hlen hread hbytes hrecord =>
      exact ⟨by simp, fun _ => ⟨hlen, hread, fun f hf => unpackTelemetry_of_memRead hf hlen hbytes hrecord⟩⟩

end Sys2Proof.Machine
end

section
/-! SUPPORT. The state after reset, and the guards of the host's reads: a telemetry register by TVALID, a buffer byte by
the buffer's length. -/

namespace Sys2Proof.Machine

/-- Settles O44: nothing is written and both lengths are 0. -/
theorem resetStateMeetsTheInvariant : Obligations.ResetStateMeetsTheInvariant := State.reset_inv

/-- While TVALID is 0 every telemetry register is refused. -/
theorem hostRead_telemetry_refused {s : State} (h : s.tvalid = false) :
    ∀ x ∈ [HostItem.tPos, .tForce, .tPower, .tTemp, .tVolt, .tErr], hostRead x s = .error .telemetryNotValid := by
  simp [hostRead, readTelemetry, h]

/-- A byte at or beyond the buffer's length is refused. -/
theorem hostRead_byte_refused {s : State} {sp : Space} {a : Nat} (h : s.bufferLen sp ≤ a) :
    hostRead (.byte sp a) s = .error (.beyondLength sp a) := by
  have hnone : memRead sp a 1 s = none := if_neg (by omega)
  rw [hostRead, readByte, hnone]

/-- A written byte below the length and the capacity is read as it is held. -/
theorem hostRead_byte_of_read {s : State} {sp : Space} {a : Nat} {b : Byte} (hlen : a < s.bufferLen sp)
    (hcap : a < sp.capacity) (hread : Memory.read (s.buffer sp) a = some b) :
    hostRead (.byte sp a) s = .ok (.u8 b) := by
  have hsome : memRead sp a 1 s = some [b] := memRead_of_read hlen hcap rfl fun i hi => by
    obtain rfl : i = 0 := by omega
    exact hread
  rw [hostRead, readByte, hsome]

/-- R28's bounds keep each length within its buffer. -/
theorem State.Inv.bufferLen_le_capacity {s : State} (h : s.Inv) (sp : Space) : s.bufferLen sp ≤ sp.capacity := by
  cases sp with
  | ibuf => exact h.ilenBound
  | obuf =>
    have hlegal := h.olenShape
    simp only [olenLegal, config_ibufMax] at hlegal
    simp only [bufferLen_obuf, capacity_obuf]
    omega

/-- Each buffer is written up to its length. -/
theorem State.Inv.buffer_filled {s : State} (h : s.Inv) (sp : Space) :
    Memory.filled (s.buffer sp) (s.bufferLen sp) := by
  cases sp with
  | ibuf => exact h.ibufFilled
  | obuf => exact h.obufFilled

/-- Under the invariant every byte below its buffer's length is read. -/
theorem State.Inv.hostRead_byte {s : State} (h : s.Inv) {sp : Space} {a : Nat} (ha : a < s.bufferLen sp) :
    ∃ b, Memory.read (s.buffer sp) a = some b ∧ hostRead (.byte sp a) s = .ok (.u8 b) := by
  obtain ⟨b, hb⟩ := Option.isSome_iff_exists.mp (h.buffer_filled sp a ha)
  exact ⟨b, hb, hostRead_byte_of_read ha (Nat.lt_of_lt_of_le ha (h.bufferLen_le_capacity sp)) hb⟩

/-- The two's complement value of a pattern, by its top bit (R7). -/
theorem signed_eq_toNat_sub (w : Word) : signed w = w.toNat - if w.getLsbD 31 then 4294967296 else 0 := by
  have hmsb : w.msb = w.getLsbD 31 := BitVec.msb_eq_getLsbD_last w
  rw [signed, BitVec.toInt_eq_msb_cond, hmsb]
  split <;> simp

/-- A response of a wrong length leaves the telemetry unreadable. -/
theorem execDecResp_of_wrong_length {s : State} (h : s.ilen ≠ 19) :
    execDecResp s = .next { s with tvalid := false, err := .badLength } := by
  rcases execDecResp_cases s with ⟨_, hs⟩ | ⟨hlen, _⟩ | ⟨hlen, _⟩ | ⟨hlen, _⟩
  · exact hs
  all_goals exact absurd hlen h

/-- Settles O43: TVALID is 0 and both lengths are 0, so the guards refuse what reset leaves unspecified. -/
theorem resetStateIsTheSpecs : Obligations.ResetStateIsTheSpecs := by
  refine ⟨rfl, rfl, rfl, rfl, rfl, rfl, rfl, rfl, hostRead_telemetry_refused rfl, fun sp a => ?_⟩
  cases sp <;> exact hostRead_byte_refused a.zero_le

/-- Settles O50, a guard at a time. -/
theorem hostReadsAreGuarded : Obligations.HostReadsAreGuarded := by
  intro s
  refine ⟨⟨rfl, rfl, ?_, rfl, rfl, rfl, rfl, rfl, rfl⟩, hostRead_telemetry_refused, fun hvalid => ?_,
    fun _ _ => hostRead_byte_refused, fun h _ _ => h.hostRead_byte, fun hlen => ?_⟩
  · rw [hostRead, signed_eq_toNat_sub]
  · simp [hostRead, readTelemetry, hvalid]
  · exact ⟨_, execDecResp_of_wrong_length hlen, hostRead_telemetry_refused rfl .tPos (by simp)⟩

end Sys2Proof.Machine
end

section
/-! SUPPORT. What the instructions cannot see: the error before, and whatever R24 lets no host read. -/

namespace Sys2Proof.Machine

/-- The common end of the ENC operations, as one equation. -/
theorem emitFrame_eq (body : List Byte) (s : State) : emitFrame body s =
    if body.length + 2 ≤ 34 then .next { s with
      obuf := Memory.writeBytes s.obuf 0 (buildFrame body), olen := body.length + 2, acc := crc16 body,
      err := .none }
    else .fault (.outsideBuffer .obuf) := by
  rcases emitFrame_cases body s with ⟨hfit, hs⟩ | ⟨hover, hs⟩
  · rw [hs, if_pos hfit]
  · rw [hs, if_neg (Nat.not_le.mpr hover)]

/-- IB.PUSH, as one equation. -/
theorem execIbPush_eq (b : Byte) (s : State) : execIbPush b s =
    if s.ilen = 32 then .next { s with err := .badOperand }
    else if s.ilen < 32 then .next { s with
      ibuf := Memory.write s.ibuf s.ilen b, ilen := s.ilen + 1, err := .none }
    else .fault (.outsideBuffer .ibuf) := by
  rcases execIbPush_cases b s with ⟨hfull, hs⟩ | ⟨hroom, hs⟩ | ⟨hover, hs⟩
  · rw [hs, if_pos hfull]
  · rw [hs, if_neg (by omega), if_pos hroom]
  · rw [hs, if_neg (by omega), if_neg (by omega)]

/-! ### The error before -/

@[simp] theorem memRead_with_err (sp : Space) (addr n : Nat) (s : State) (e : ErrCode) :
    memRead sp addr n { s with err := e } = memRead sp addr n s := by
  cases sp <;> rfl

theorem emitFrame_with_err (body : List Byte) (s : State) (e : ErrCode) :
    emitFrame body { s with err := e } = emitFrame body s := by
  simp only [emitFrame_eq]

/-- No instruction looks at ERR, and each that goes on writes it (R15). -/
theorem exec_with_err (i : Instr) (s : State) (e : ErrCode) : exec i { s with err := e } = exec i s := by
  cases i with
  | crcInit | crcByte b | packF32 | ibClr | setOpa w | wireEnable | wireMove _ _ | wireResponse _ _ _ _ _ _ _ _ => rfl
  | encEnable => exact emitFrame_with_err enableBody s e
  | encMove => exact emitFrame_with_err (moveBody s.opa) s e
  | crcBuf => simp only [exec, execCrcBuf, memRead_with_err, succeed]
  | encFrame => simp only [exec, execEncFrame, memRead_with_err, emitFrame_with_err, raiseError]
  | decResp =>
    simp only [exec, execDecResp, unpackResponse, memRead_with_err, rejectResponse, acceptResponse, raiseError,
      succeed, setTvalid]
  | ibPush b => simp only [exec, execIbPush_eq]

/-- Settles O34: a legal word runs an instruction, and an illegal one overwrites ERR too. -/
theorem noErrorIsSticky : Obligations.NoErrorIsSticky := by
  refine ⟨exec_with_err, fun s e w rest hin => ?_⟩
  cases hd : decodeWord w with
  | ok i =>
    rw [step_of_decode_ok hin hd, step_of_decode_ok (s := { s with err := e }) hin hd]
    exact exec_with_err i { s with inbox := rest } e
  | error d => rw [step_of_decodeWord_error hin hd, step_of_decodeWord_error (s := { s with err := e }) hin hd]

/-! ### States that look alike -/

/-- Buffers that agree below an index still do, and beyond it, after the same bytes are written there. -/
theorem Memory.agreeBelow_writeBytes {m k : Memory} {n : Nat} (h : Memory.agreeBelow m k n) (bs : List Byte) :
    Memory.agreeBelow (Memory.writeBytes m n bs) (Memory.writeBytes k n bs) (n + bs.length) := by
  intro a ha
  rw [Memory.read_writeBytes, Memory.read_writeBytes]
  by_cases hn : n ≤ a
  · rw [if_pos ⟨hn, ha⟩, if_pos ⟨hn, ha⟩]
  · rw [if_neg (by omega), if_neg (by omega), h a (by omega)]

theorem State.Alike.refl (s : State) : s.Alike s :=
  ⟨rfl, rfl, rfl, rfl, rfl, rfl, fun _ => rfl, rfl, rfl, fun _ _ => rfl, fun _ _ => rfl, rfl⟩

section
variable {s t : State}

theorem State.Alike.bufferLen (h : s.Alike t) (sp : Space) : s.bufferLen sp = t.bufferLen sp := by
  cases sp with
  | ibuf => exact h.ilen
  | obuf => exact h.olen

theorem State.Alike.buffer (h : s.Alike t) (sp : Space) :
    Memory.agreeBelow (s.buffer sp) (t.buffer sp) (s.bufferLen sp) := by
  cases sp with
  | ibuf => exact h.ibuf
  | obuf => exact h.obuf

/-- Every read an operation or the host makes of a buffer is guarded by its length, so it gives the same. -/
theorem State.Alike.memRead (h : s.Alike t) (sp : Space) (addr n : Nat) :
    Machine.memRead sp addr n s = Machine.memRead sp addr n t :=
  memRead_congr (h.bufferLen sp) fun i _ hi => h.buffer sp (addr + i) hi

theorem State.Alike.readTelemetry (h : s.Alike t) (f : Telemetry → HostValue) :
    Machine.readTelemetry f s = Machine.readTelemetry f t := by
  unfold Machine.readTelemetry
  rw [← h.tvalid]
  split
  · rw [h.telemetry ‹_›]
  · rfl

/-- The host cannot tell the two states apart (R24). -/
theorem State.Alike.hostRead (h : s.Alike t) (x : HostItem) : Machine.hostRead x s = Machine.hostRead x t := by
  cases x with
  | acc => simp only [Machine.hostRead, h.acc]
  | opa | opaSigned => simp only [Machine.hostRead, h.opa]
  | w0 => simp only [Machine.hostRead, h.w0]
  | w1 => simp only [Machine.hostRead, h.w1]
  | err => simp only [Machine.hostRead, h.err]
  | tvalid => simp only [Machine.hostRead, h.tvalid]
  | ilen => simp only [Machine.hostRead, h.ilen]
  | olen => simp only [Machine.hostRead, h.olen]
  | byte sp index => simp only [Machine.hostRead, readByte, h.memRead]
  | tPos | tForce | tPower | tTemp | tVolt | tErr => simp only [Machine.hostRead, h.readTelemetry]

theorem State.Alike.raiseError (h : s.Alike t) (e : ErrCode) :
    (Machine.raiseError e s).Alike (Machine.raiseError e t) :=
  { h with err := rfl }

/-- A rejected response leaves the telemetry registers differing where they did, and not valid. -/
theorem State.Alike.rejectResponse (h : s.Alike t) (e : ErrCode) :
    (Machine.rejectResponse e s).Alike (Machine.rejectResponse e t) :=
  { h with err := rfl, tvalid := rfl, telemetry := fun hvalid => nomatch hvalid }

theorem State.Alike.acceptResponse (h : s.Alike t) (record : Telemetry) :
    (Machine.acceptResponse record s).Alike (Machine.acceptResponse record t) :=
  { h with err := rfl, tvalid := rfl, telemetry := fun _ => rfl }

/-- The byte pushed stands at the same index of both inputs, which then agree on it too. -/
theorem State.Alike.push_input (h : s.Alike t) (b : Byte) :
    State.Alike { s with ibuf := Memory.write s.ibuf s.ilen b, ilen := s.ilen + 1, err := .none }
      { t with ibuf := Memory.write t.ibuf s.ilen b, ilen := s.ilen + 1, err := .none } :=
  { h with ilen := rfl, err := rfl, ibuf := Memory.agreeBelow_writeBytes h.ibuf [b] }

/-- A built frame replaces all that can be read of either output buffer. -/
theorem State.Alike.emitFrame (h : s.Alike t) (body : List Byte) :
    outcomesAgree State.Alike (Machine.emitFrame body s) (Machine.emitFrame body t) := by
  rw [emitFrame_eq, emitFrame_eq]
  split
  · have hnone : Memory.agreeBelow s.obuf t.obuf 0 := fun a ha => absurd ha a.not_lt_zero
    have hframe := Memory.agreeBelow_writeBytes hnone (buildFrame body)
    rw [buildFrame_length, Nat.zero_add] at hframe
    exact { h with acc := rfl, olen := rfl, err := rfl, obuf := hframe }
  · rfl

theorem State.Alike.execCrcBuf (h : s.Alike t) :
    outcomesAgree State.Alike (Machine.execCrcBuf s) (Machine.execCrcBuf t) := by
  unfold Machine.execCrcBuf
  rw [← h.ilen, ← h.memRead]
  split
  · exact { h with acc := rfl, ilen := rfl, err := rfl }
  · rfl

theorem State.Alike.execEncFrame (h : s.Alike t) :
    outcomesAgree State.Alike (Machine.execEncFrame s) (Machine.execEncFrame t) := by
  unfold Machine.execEncFrame
  rw [← h.ilen, ← h.memRead]
  split
  · exact h.raiseError _
  · split
    · exact h.emitFrame _
    · rfl

theorem State.Alike.unpackResponse (h : s.Alike t) :
    outcomesAgree State.Alike (Machine.unpackResponse s) (Machine.unpackResponse t) := by
  unfold Machine.unpackResponse
  rw [← h.memRead]
  split
  · exact h.acceptResponse _
  · rfl

theorem State.Alike.execDecResp (h : s.Alike t) :
    outcomesAgree State.Alike (Machine.execDecResp s) (Machine.execDecResp t) := by
  unfold Machine.execDecResp
  rw [← h.ilen, ← h.memRead]
  split
  · exact h.rejectResponse _
  · split
    · split
      · exact h.rejectResponse _
      · exact h.unpackResponse
    · rfl

theorem State.Alike.execIbPush (h : s.Alike t) (b : Byte) :
    outcomesAgree State.Alike (Machine.execIbPush b s) (Machine.execIbPush b t) := by
  rw [execIbPush_eq, execIbPush_eq, ← h.ilen]
  split
  · exact { h with ilen := rfl, err := rfl }
  · split
    · exact h.push_input b
    · rfl

/-- Every instruction does alike in states that look alike. -/
theorem State.Alike.exec (h : s.Alike t) (i : Instr) :
    outcomesAgree State.Alike (Machine.exec i s) (Machine.exec i t) := by
  cases i with
  | crcInit => exact { h with acc := rfl, err := rfl }
  | crcByte b =>
    have hacc : Machine.crcByte s.acc b = Machine.crcByte t.acc b := congrArg (Machine.crcByte · b) h.acc
    exact { h with acc := hacc, err := rfl }
  | crcBuf => exact h.execCrcBuf
  | encEnable => exact h.emitFrame enableBody
  | encMove =>
    change outcomesAgree State.Alike (Machine.emitFrame (moveBody s.opa) s) (Machine.emitFrame (moveBody t.opa) t)
    rw [← h.opa]
    exact h.emitFrame _
  | encFrame => exact h.execEncFrame
  | decResp => exact h.execDecResp
  | packF32 =>
    exact { h with
      w0 := congrArg (fun v => (f32Words v).1) h.opa, w1 := congrArg (fun v => (f32Words v).2) h.opa, err := rfl }
  | ibClr => exact { h with ilen := rfl, err := rfl, ibuf := fun a ha => absurd ha a.not_lt_zero }
  | ibPush b => exact h.execIbPush b
  | setOpa w => exact { h with opa := rfl, err := rfl }
  | wireEnable | wireMove _ _ | wireResponse _ _ _ _ _ _ _ _ => rfl

end

/-- A presentation that does not decode is rejected, in the state with it taken. -/
theorem step_of_decode_error {s : State} {p : Encoded} {rest : List HostEvent} {e : DecodeError}
    (h : s.inbox = .present p :: rest) (hd : decode p = .error e) :
    step s = rejectPresented p { s with inbox := rest } := by
  simp only [step, takeEvent, h, hd]

/-- The host does the same to both states, and the step does alike. -/
theorem State.Alike.step {s t : State} (h : s.Alike t) :
    outcomesAgree State.Alike (Machine.step s) (Machine.step t) := by
  cases hs : s.inbox with
  | nil =>
    rw [step_of_inbox_nil hs, step_of_inbox_nil (h.inbox ▸ hs)]
    exact h
  | cons ev rest =>
    have ht : t.inbox = ev :: rest := h.inbox ▸ hs
    have htaken : State.Alike { s with inbox := rest } { t with inbox := rest } := { h with inbox := rfl }
    cases ev with
    | reset =>
      rw [step_of_reset hs, step_of_reset ht]
      exact .refl _
    | present p =>
      cases hd : decode p with
      | ok i =>
        rw [step_of_decode_ok hs hd, step_of_decode_ok ht hd]
        exact htaken.exec i
      | error e =>
        rw [step_of_decode_error hs hd, step_of_decode_error ht hd]
        cases p with
        | word w => exact htaken.raiseError .illegalOp
        | frame bytes => rfl

/-- Settles O51: reads are guarded by what looks alike, and so is every read an operation makes. -/
theorem nothingHiddenCanBeObserved : Obligations.NothingHiddenCanBeObserved :=
  fun _ _ h => ⟨h.hostRead, h.step⟩

end Sys2Proof.Machine
end

section
/-! SUPPORT. The encoder undoes the decoder: no bit of an operation word and no byte of a frame is ignored. From it, the
opcode table's match and mask. -/

namespace Sys2Proof

open Machine

/-! ### The one encoding -/

/-- The fields that decode are those of the instruction's own word: no bit of them is ignored (R53). -/
theorem encode_of_decodeFields {op : Byte} {imm : Word} {i : Instr} (h : decodeFields op imm = .ok i) :
    encode i = .word (packWord op imm) := by
  rcases decodeFields_cases h with ⟨rfl, rfl, rfl⟩ | ⟨b, rfl, rfl, rfl⟩ | ⟨rfl, rfl, rfl⟩ | ⟨rfl, rfl, rfl⟩ |
    ⟨rfl, rfl, rfl⟩ | ⟨rfl, rfl, rfl⟩ | ⟨rfl, rfl, rfl⟩ | ⟨rfl, rfl, rfl⟩ | ⟨rfl, rfl, rfl⟩ | ⟨b, rfl, rfl, rfl⟩ |
    ⟨v, rfl, rfl, rfl⟩ <;> rfl

theorem encode_of_decodeWord {w : OpWord} {i : Instr} (h : decodeWord w = .ok i) : encode i = .word w := by
  rw [encode_of_decodeFields h, packWord_fields]

/-- An operation word and the instruction it stands for determine each other. -/
theorem decodeWord_ok_iff {w : OpWord} {i : Instr} : decodeWord w = .ok i ↔ encode i = .word w := by
  refine ⟨encode_of_decodeWord, fun h => ?_⟩
  have hdecode := decode_encode i
  rwa [h] at hdecode

theorem encode_of_readCommandLayout {b0 b1 b2 b3 b4 b5 b6 b7 b8 : Byte} {i : Instr}
    (h : readCommandLayout b0 b1 b2 b3 b4 b5 b6 b7 b8 = .ok i) :
    encode i = .frame [b0, b1, b2, b3, b4, b5, b6, b7, b8] := by
  unfold readCommandLayout at h
  split at h
  · rename_i hbytes
    cases h
    rw [hbytes, encode]
  · split at h
    · rename_i hheader
      obtain ⟨rfl, rfl, rfl⟩ := hheader
      cases h
      simp [encode, moveBody, be32Pack, le16Pack]
    · cases h

theorem encode_of_readResponseLayout
    {b0 b1 b2 b3 b4 b5 b6 b7 b8 b9 b10 b11 b12 b13 b14 b15 b16 b17 b18 : Byte} {i : Instr}
    (h : readResponseLayout b0 b1 b2 b3 b4 b5 b6 b7 b8 b9 b10 b11 b12 b13 b14 b15 b16 b17 b18 = .ok i) :
    encode i = .frame
      [b0, b1, b2, b3, b4, b5, b6, b7, b8, b9, b10, b11, b12, b13, b14, b15, b16, b17, b18] := by
  unfold readResponseLayout at h
  split at h
  · rename_i hfn
    subst hfn
    cases h
    simp [encode, be32Pack, be16Bytes, le16Pack]
  · cases h

/-- The bytes that are read as a layout are those of the instruction's own frame, by the layout's length. -/
theorem encode_of_decodeFrame {bytes : List Byte} {i : Instr} (h : decodeFrame bytes = .ok i) :
    encode i = .frame bytes := by
  unfold decodeFrame at h
  split at h
  · exact encode_of_readCommandLayout h
  · exact encode_of_readResponseLayout h
  · cases h

/-- Whatever decodes to an instruction is that instruction's encoding. -/
theorem encode_of_decode {e : Encoded} {i : Instr} (h : decode e = .ok i) : encode i = e := by
  cases e with
  | word w => exact encode_of_decodeWord h
  | frame bytes => exact encode_of_decodeFrame h

/-- No operation has an operand that its word's form restricts (R51). -/
theorem wellFormed_of_isOperation {i : Instr} (h : i.isOperation = true) : i.wellFormed = true := by
  cases i with
  | wireEnable | wireMove _ _ | wireResponse _ _ _ _ _ _ _ _ => cases h
  | _ => rfl

/-- Settles O36: the decoder undoes the encoder on every row, well formed or not. -/
theorem decodeOfEncodeIsTheInstruction : Obligations.DecodeOfEncodeIsTheInstruction :=
  fun i _ => decode_encode i

/-- Settles O37: the encoder undoes the decoder, on operation words and on frames. -/
theorem everyEncodingIsTheOnlyOne : Obligations.EveryEncodingIsTheOnlyOne :=
  ⟨fun _ _ => encode_of_decode, fun _ _ h =>
    ⟨isOperation_of_decodeWord h, wellFormed_of_isOperation (isOperation_of_decodeWord h)⟩⟩

/-! ### Match and mask, and the legal words -/

/-- Each instruction's encoding fits its row of the opcode table. -/
theorem encode_fits_row (i : Instr) : Laws.TableRow.Statement i := by
  cases i with
  | crcInit => exact Laws.TableRow.crcInit
  | crcByte b => exact Laws.TableRow.crcByte b
  | crcBuf => exact Laws.TableRow.crcBuf
  | encEnable => exact Laws.TableRow.encEnable
  | encMove => exact Laws.TableRow.encMove
  | encFrame => exact Laws.TableRow.encFrame
  | decResp => exact Laws.TableRow.decResp
  | packF32 => exact Laws.TableRow.packF32
  | ibClr => exact Laws.TableRow.ibClr
  | ibPush b => exact Laws.TableRow.ibPush b
  | setOpa w => exact Laws.TableRow.setOpa w
  | wireEnable => exact Laws.TableRow.wireEnable
  | wireMove position crc => exact Laws.TableRow.wireMove position crc
  | wireResponse address position force power temp volt errs crc =>
    exact Laws.TableRow.wireResponse address position force power temp volt errs crc

/-- A word that decodes agrees with its row's match under its mask. -/
theorem row_of_decodeWord {w : OpWord} {i : Instr} (h : decodeWord w = .ok i) :
    ∃ m k, rowOf i = some (m, k) ∧ w &&& k = m := by
  have hencode := encode_of_decodeWord h
  rcases encode_fits_row i with ⟨v, m, k, _, hword, hrow, hmask, _⟩ | ⟨_, hframe, _⟩
  · cases hencode.symm.trans hword
    exact ⟨m, k, hrow, hmask⟩
  · cases hencode.symm.trans hframe

/-- A mask that keeps the whole code fixes the code, and asks its bits of the immediate to be zero. -/
theorem fields_of_masked {w : OpWord} {op : Byte} {k : Word} (h : w &&& packWord 0xFF k = packWord op 0) :
    opOf w = op ∧ immOf w &&& k = 0 := by
  rw [← packWord_fields w, packWord_and] at h
  have hop := congrArg opOf h
  have himm := congrArg immOf h
  rw [opOf_packWord, opOf_packWord] at hop
  rw [immOf_packWord, immOf_packWord] at himm
  exact ⟨BitVec.and_allOnes.symm.trans hop, himm⟩

/-- A word's fields, read off, are the word. -/
theorem eq_packWord {w : OpWord} {op : Byte} {imm : Word} (hop : opOf w = op) (himm : immOf w = imm) :
    w = packWord op imm := by
  rw [← hop, ← himm, packWord_fields]

/-- A word that agrees with a format N row is that row's one word. -/
theorem eq_of_maskedN {w m : OpWord} (h : w &&& 0xFFFFFFFFFF = m) : w = m :=
  BitVec.and_allOnes.symm.trans h

/-- A word that agrees with a format B row is the row's code and a byte. -/
theorem eq_of_maskedB {w : OpWord} {op : Byte} (h : w &&& 0xFFFFFFFF00 = packWord op 0) :
    ∃ b, w = packWord op (byteImm b) := by
  obtain ⟨hop, himm⟩ := fields_of_masked (k := 0xFFFFFF00) h
  have hhigh : immHigh (immOf w) = 0 := by
    have hmasked := congrArg immHigh himm
    rw [immHigh, BitVec.extractLsb'_and] at hmasked
    exact BitVec.and_allOnes.symm.trans hmasked
  exact ⟨immByte (immOf w), eq_packWord hop (byteImm_immByte hhigh).symm⟩

/-- A word that agrees with a format W row is the row's code and any immediate. -/
theorem eq_of_maskedW {w : OpWord} {op : Byte} (h : w &&& 0xFF00000000 = packWord op 0) :
    w = packWord op (immOf w) :=
  eq_packWord (fields_of_masked (k := 0) h).1 rfl

/-- A word that agrees with a row's match under its mask decodes to that row. -/
theorem decodeWord_of_row {w : OpWord} {i : Instr} {m k : OpWord} (hrow : rowOf i = some (m, k))
    (hmask : w &&& k = m) : ∃ j, decodeWord w = .ok j ∧ rowOf j = some (m, k) := by
  cases i with
  | crcInit | crcBuf | encEnable | encMove | encFrame | decResp | packF32 | ibClr =>
    refine ⟨_, ?_, hrow⟩
    cases hrow
    exact decodeWord_ok_iff.mpr (congrArg Encoded.word (eq_of_maskedN hmask).symm)
  | crcByte _ =>
    cases hrow
    obtain ⟨b, hw⟩ := eq_of_maskedB (op := 0x02) hmask
    exact ⟨.crcByte b, decodeWord_ok_iff.mpr (congrArg Encoded.word hw.symm), rfl⟩
  | ibPush _ =>
    cases hrow
    obtain ⟨b, hw⟩ := eq_of_maskedB (op := 0x41) hmask
    exact ⟨.ibPush b, decodeWord_ok_iff.mpr (congrArg Encoded.word hw.symm), rfl⟩
  | setOpa _ =>
    cases hrow
    exact ⟨.setOpa _, decodeWord_ok_iff.mpr (congrArg Encoded.word (eq_of_maskedW hmask).symm), rfl⟩
  | wireEnable | wireMove _ _ | wireResponse _ _ _ _ _ _ _ _ => cases hrow

/-- Settles O38. -/
theorem wordsDecodeByMatchAndMask : Obligations.WordsDecodeByMatchAndMask :=
  ⟨fun _ _ => row_of_decodeWord, fun _ _ _ _ => decodeWord_of_row⟩

end Sys2Proof
end

section
/-! SUPPORT. Which operation words are legal, from the code map and the formats (R51 to R53). -/

namespace Sys2Proof

open Machine

/-- The codes of the format N operations (R52). -/
abbrev formatNCodes : List Byte := [0x01, 0x03, 0x10, 0x11, 0x12, 0x20, 0x30, 0x40]

/-- The codes of the format B operations (R52). -/
abbrev formatBCodes : List Byte := [0x02, 0x41]

/-- Each format N code with a zero immediate names an operation. -/
theorem decodeFields_formatN {op : Byte} (h : op ∈ formatNCodes) : ∃ i, decodeFields op 0 = .ok i := by
  simp only [List.mem_cons, List.not_mem_nil, or_false] at h
  rcases h with rfl | rfl | rfl | rfl | rfl | rfl | rfl | rfl <;> exact ⟨_, rfl⟩

/-- Each format B code with an immediate that is a byte names an operation. -/
theorem decodeFields_formatB {op : Byte} (b : Byte) (h : op ∈ formatBCodes) :
    ∃ i, decodeFields op (byteImm b) = .ok i := by
  simp only [List.mem_cons, List.not_mem_nil, or_false] at h
  rcases h with rfl | rfl
  · exact ⟨_, formatB_byteImm .crcByte 0x02 b⟩
  · exact ⟨_, formatB_byteImm .ibPush 0x41 b⟩

/-- Which fields are legal: one of the eleven codes, with its format's must-be-zero bits zero (R51, R52). -/
theorem decodeFields_ok_iff {op : Byte} {imm : Word} : (∃ i, decodeFields op imm = .ok i) ↔
    (op ∈ formatNCodes ∧ imm = 0) ∨ (op ∈ formatBCodes ∧ immHigh imm = 0) ∨ op = 0x42 := by
  constructor
  · rintro ⟨i, h⟩
    rcases decodeFields_cases h with ⟨_, rfl, rfl⟩ | ⟨b, _, rfl, rfl⟩ | ⟨_, rfl, rfl⟩ | ⟨_, rfl, rfl⟩ |
      ⟨_, rfl, rfl⟩ | ⟨_, rfl, rfl⟩ | ⟨_, rfl, rfl⟩ | ⟨_, rfl, rfl⟩ | ⟨_, rfl, rfl⟩ | ⟨b, _, rfl, rfl⟩ |
      ⟨v, _, rfl, rfl⟩ <;> simp
  · rintro (⟨hop, rfl⟩ | ⟨hop, hhigh⟩ | rfl)
    · exact decodeFields_formatN hop
    · exact byteImm_immByte hhigh ▸ decodeFields_formatB (immByte imm) hop
    · exact ⟨.setOpa imm, rfl⟩

/-- The must-be-zero bits of a format B word are the word's bits 31 to 8. -/
theorem immHigh_immOf (w : OpWord) : immHigh (immOf w) = w.extractLsb' 8 24 := by
  simp [immHigh, immOf, BitVec.extractLsb'_extractLsb'_of_le]

/-- Settles O35: the legal fields are known, and an illegal word's step raises IllegalOp. -/
theorem illegalWordsChangeOnlyErr : Obligations.IllegalWordsChangeOnlyErr := by
  refine ⟨rfl, fun w => ?_, fun s w rest hin hillegal => ?_⟩
  · rw [← immHigh_immOf]
    exact decodeFields_ok_iff
  · cases hd : decodeWord w with
    | ok i => exact absurd ⟨i, hd⟩ hillegal
    | error e => exact step_of_decodeWord_error hin hd

/-- Settles O39: each legal word is written out as its operation's encoding, and the decoder undoes the encoder. -/
theorem writtenOutWordsDecode : Obligations.WrittenOutWordsDecode :=
  ⟨decode_encode .crcInit, decode_encode (.crcByte 0x64), decode_encode .crcBuf, decode_encode .encEnable,
    decode_encode .encMove, decode_encode .encFrame, decode_encode .decResp, decode_encode .packF32,
    decode_encode .ibClr, decode_encode (.ibPush 0xFF), decode_encode (.setOpa 0xFFE17B80), rfl, rfl, rfl⟩

end Sys2Proof
end

section
/-! SUPPORT. The byte-order functions as numbers: sign, inverse, and the byte reversal of a float pattern. -/

namespace Sys2Proof.Machine

/-- A byte below a value, as a number. -/
theorem toNat_append_byte {n : Nat} (v : BitVec n) (b : Byte) : (v ++ b).toNat = v.toNat * 256 + b.toNat := by
  rw [BitVec.toNat_append, ← Nat.shiftLeft_add_eq_or_of_lt b.isLt, Nat.shiftLeft_eq]

/-- R60: a big-endian pair of bytes as a number. -/
theorem toNat_be16Unpack (b0 b1 : Byte) : (be16Unpack b0 b1).toNat = b0.toNat * 256 + b1.toNat :=
  toNat_append_byte b0 b1

/-- Four big-endian bytes as a number, before the signed reading. -/
theorem toNat_be32Unpack (b0 b1 b2 b3 : Byte) : (be32Unpack b0 b1 b2 b3).toNat =
    b0.toNat * 16777216 + b1.toNat * 65536 + b2.toNat * 256 + b3.toNat := by
  simp only [be32Unpack, toNat_append_byte]
  omega

/-- The sign bit of four big-endian bytes is that of the first. -/
theorem be32Unpack_getLsbD_31 (b0 b1 b2 b3 : Byte) : (be32Unpack b0 b1 b2 b3).getLsbD 31 = b0.getLsbD 7 := by
  simp only [be32Unpack, BitVec.getLsbD_append]
  rfl

/-- R59: the two's complement value of four big-endian bytes. -/
theorem be32UnpackS_eq (b0 b1 b2 b3 : Byte) : be32UnpackS b0 b1 b2 b3 =
    (b0.toNat * 16777216 + b1.toNat * 65536 + b2.toNat * 256 + b3.toNat : Int) -
      (if b0.getLsbD 7 then 4294967296 else 0) := by
  rw [be32UnpackS, signed_eq_toNat_sub, be32Unpack_getLsbD_31, toNat_be32Unpack]
  push_cast
  rfl

/-- The two readings of R7 invert each other on the whole `s32` range. -/
theorem signed_pattern {v : Int} (hmin : -2147483648 ≤ v) (hmax : v ≤ 2147483647) : signed (pattern v) = v :=
  BitVec.toInt_ofInt_eq_self (by decide) hmin (by omega)

/-- The signed reading of a packed pattern is the pattern's (R59). -/
theorem be32UnpackS_byteOf (w : Word) :
    be32UnpackS (byteOf w 3) (byteOf w 2) (byteOf w 1) (byteOf w 0) = signed w := by
  rw [be32UnpackS, be32Unpack_byteOf]

/-- Settles O9: a packed value is unpacked to its pattern, and the pattern of an `s32` reads as that value. -/
theorem bigEndian32RoundTrip : Obligations.BigEndian32RoundTrip :=
  ⟨fun _ => rfl, be32UnpackS_eq, fun v hmin hmax =>
    ⟨_, _, _, _, rfl, (be32UnpackS_byteOf (pattern v)).trans (signed_pattern hmin hmax)⟩⟩

/-- Settles O10. -/
theorem sixteenBitFieldOrder : Obligations.SixteenBitFieldOrder :=
  ⟨toNat_be16Unpack, fun _ => rfl⟩

/-- Two big-endian pairs make one big-endian pattern. -/
theorem be16Unpack_append (b0 b1 b2 b3 : Byte) :
    (be16Unpack b0 b1 ++ be16Unpack b2 b3 : Word) = be32Unpack b0 b1 b2 b3 :=
  (BitVec.append_assoc (x₁ := b0 ++ b1) (x₂ := b2) (x₃ := b3)).symm

/-- R62: the two values together are the pattern with its four bytes reversed. -/
theorem f32Words_append (w : Word) : ((f32Words w).1 ++ (f32Words w).2 : Word) =
    be32Unpack (byteOf w 0) (byteOf w 1) (byteOf w 2) (byteOf w 3) :=
  be16Unpack_append _ _ _ _

/-- Settles O11: the two values are the pattern with its bytes reversed, and reversing twice changes nothing. -/
theorem f32WordsReverseTheBytes : Obligations.F32WordsReverseTheBytes := by
  intro w
  rw [f32Words_append]
  refine ⟨rfl, rfl, by simp [be32Pack], ?_⟩
  rw [f32Words, byteOf_be32Unpack_zero, byteOf_be32Unpack_one, byteOf_be32Unpack_two, byteOf_be32Unpack_three]
  exact congrArg₂ Prod.mk (append_adjacent w 16 8 8) (append_adjacent w 0 8 8)

end Sys2Proof.Machine
end

section
/-! SUPPORT. The opcode table's wire layouts: no operations themselves, but what ENC.ENABLE and ENC.MOVE build and what
DEC.RESP takes apart; and the pseudo-operations' expansions. -/

namespace Sys2Proof.Machine

/-- Settles O27: each of the three is refused by name. -/
theorem wireLayoutsAreRefused : Obligations.WireLayoutsAreRefused :=
  fun _ _ _ _ _ _ _ _ _ => ⟨rfl, rfl, rfl⟩

/-- Settles O57: the expansions are the definitions, and the registers come from the configuration. -/
theorem pseudoOperationsAndGainRegisters : Obligations.PseudoOperationsAndGainRegisters :=
  ⟨fun _ => ⟨rfl, rfl⟩, fun _ => ⟨rfl, rfl⟩, rfl, rfl, rfl⟩

/-- The frame of a seven-byte body, stored at index 0, is read back whole from `OBUF[0..8]`. -/
theorem readBytes_buildFrame (m : Memory) {body : List Byte} (h : body.length = 7) :
    Memory.readBytes (Memory.writeBytes m 0 (buildFrame body)) 0 9 = some (buildFrame body) := by
  have hlen : (buildFrame body).length = 9 := by rw [buildFrame_length, h]
  have hread := Memory.readBytes_writeBytes m (buildFrame body)
  rwa [hlen] at hread

/-- Settles O28: both layouts are the frames of the bodies that the two operations build. -/
theorem builtFramesAreTheirLayouts : Obligations.BuiltFramesAreTheirLayouts := by
  refine fun s => ⟨⟨_, _, exec_encEnable s, rfl, rfl, readBytes_buildFrame s.obuf enableBody_length⟩,
    _, _, crc16 (moveBody s.opa), exec_encMove s, rfl, ?_, rfl, rfl,
    readBytes_buildFrame s.obuf (moveBody_length s.opa)⟩
  rw [Instr.wellFormed, beq_self_eq_true]

/-! ### DEC.RESP on loaded bytes -/

/-- Byte 1 of the input is byte 1 of what is loaded. -/
theorem State.inputIs.read_byte_one {s : State} {f : List Byte} (h : s.inputIs f) (hlen : s.ilen = 19) :
    Memory.read s.ibuf 1 = f[1]? :=
  h.bytes 1 (by omega)

/-- All that DEC.RESP can do where `f` is loaded: it completes, and its verdict is by the length and byte 1 of `f`. -/
theorem execDecResp_of_input {s : State} {f : List Byte} (h : s.inputIs f) :
    (f.length ≠ 19 ∧ execDecResp s = .next { s with tvalid := false, err := .badLength }) ∨
    (f.length = 19 ∧ f[1]? ≠ some 0x64 ∧ execDecResp s = .next { s with tvalid := false, err := .badFunction }) ∨
    (f.length = 19 ∧ f[1]? = some 0x64 ∧ ∃ record, unpackTelemetry f = some record ∧
      execDecResp s = .next { s with telemetry := record, tvalid := true, err := .none }) := by
  rw [h.length]
  rcases execDecResp_cases s with ⟨hlen, hs⟩ | ⟨hlen, fn, hread, hfn, hs⟩ |
    ⟨hlen, hread, bs, record, hbytes, hrecord, hs⟩ | ⟨hlen, hunread, _⟩
  · exact .inl ⟨hlen, hs⟩
  · rw [h.read_byte_one hlen] at hread
    exact .inr (.inl ⟨hlen, by simpa [hread] using hfn, hs⟩)
  · rw [h.read_byte_one hlen] at hread
    exact .inr (.inr ⟨hlen, hread, record, unpackTelemetry_of_memRead h hlen hbytes hrecord, hs⟩)
  · have hf : f.length = 19 := h.length.trans hlen
    rcases hunread with hbyte | hrecord
    · rw [h.read_byte_one hlen, List.getElem?_eq_none_iff] at hbyte
      omega
    · obtain ⟨record, ht⟩ := unpackFields_total (bs := (f.drop 2).take 15) (by simp [hf])
      simp [memRead_fields h hlen, ht] at hrecord

/-- Settles O21: the three verdicts exclude each other. -/
theorem decRespRejectsExactlyTwoClasses : Obligations.DecRespRejectsExactlyTwoClasses := by
  intro s f h
  rcases execDecResp_of_input h with ⟨hlen, hs⟩ | ⟨hlen, hfn, hs⟩ | ⟨hlen, hfn, record, _, hs⟩
  · exact ⟨_, hs, iff_of_true rfl hlen, iff_of_false nofun fun hf => hlen hf.1,
      iff_of_false nofun fun hf => hlen hf.1, iff_of_false nofun nofun⟩
  · exact ⟨_, hs, iff_of_false nofun (not_not_intro hlen), iff_of_true rfl ⟨hlen, hfn⟩,
      iff_of_false nofun fun hf => hfn hf.2, iff_of_false nofun nofun⟩
  · exact ⟨_, hs, iff_of_false nofun (not_not_intro hlen), iff_of_false nofun fun hf => hf.2 hfn,
      iff_of_true rfl ⟨hlen, hfn⟩, iff_of_true rfl rfl⟩

/-- The unpacking of the response layout is its six fields, each where R57 puts it. -/
theorem unpackTelemetry_of_encode {a : Byte} {p fo : Word} {pw : Half} {tm : Byte} {v e c : Half} {f : List Byte}
    (h : encode (.wireResponse a p fo pw tm v e c) = .frame f) : unpackTelemetry f = some ⟨p, fo, pw, tm, v, e⟩ := by
  cases h
  simp [unpackTelemetry, unpackFields, be32Pack, be16Bytes, le16Pack]

/-- Every response layout has 19 bytes and the fixed function code (R57). -/
theorem fixed_of_encode_wireResponse {a : Byte} {p fo : Word} {pw : Half} {tm : Byte} {v e c : Half} {f : List Byte}
    (h : encode (.wireResponse a p fo pw tm v e c) = .frame f) : f.length = 19 ∧ f[1]? = some 0x64 := by
  cases h
  exact ⟨rfl, rfl⟩

/-- The bytes DEC.RESP accepts are those of the response layout (R57). -/
theorem exists_wireResponse_iff {f : List Byte} :
    (∃ a p fo pw tm v e c, encode (.wireResponse a p fo pw tm v e c) = .frame f) ↔
      f.length = 19 ∧ f[1]? = some 0x64 := by
  constructor
  · rintro ⟨a, p, fo, pw, tm, v, e, c, h⟩
    exact fixed_of_encode_wireResponse h
  · rintro ⟨hlen, hfn⟩
    match f, hlen with
    | [b0, b1, b2, b3, b4, b5, b6, b7, b8, b9, b10, b11, b12, b13, b14, b15, b16, b17, b18], _ =>
      obtain rfl : b1 = config.fnExpect := Option.some.inj hfn
      exact ⟨_, _, _, _, _, _, _, _, encode_of_readResponseLayout (if_pos rfl)⟩

/-- Settles O29: what is accepted is a response layout, and its fields are what is unpacked. -/
theorem responseLayoutGoesToTelemetry : Obligations.ResponseLayoutGoesToTelemetry := by
  intro s f h
  rcases execDecResp_of_input h with ⟨hlen, hs⟩ | ⟨hlen, hfn, hs⟩ | ⟨hlen, hfn, record, hrecord, hs⟩
  · exact ⟨_, hs, iff_of_false nofun fun hf => hlen (exists_wireResponse_iff.mp hf).1,
      fun _ _ _ _ _ _ _ _ hf => absurd (fixed_of_encode_wireResponse hf).1 hlen⟩
  · exact ⟨_, hs, iff_of_false nofun fun hf => hfn (exists_wireResponse_iff.mp hf).2,
      fun _ _ _ _ _ _ _ _ hf => absurd (fixed_of_encode_wireResponse hf).2 hfn⟩
  · exact ⟨_, hs, iff_of_true rfl (exists_wireResponse_iff.mpr ⟨hlen, hfn⟩),
      fun _ _ _ _ _ _ _ _ hf => Option.some.inj (hrecord.symm.trans (unpackTelemetry_of_encode hf))⟩

end Sys2Proof.Machine
end

section
/-! SUPPORT. Sequences of operations from any state: bytes loaded are the input up to the buffer's capacity, and are then
summed or decoded as they were given. -/

namespace Sys2Proof.Machine

/-- CRC.BYTE operations fold their bytes into `ACC` and leave the input alone (R75). -/
theorem execAll_crcBytes (d : List Byte) (s : State) :
    ∃ t, execAll (d.map .crcByte) s = .next t ∧ t.acc = crcFold s.acc d ∧ t.ibuf = s.ibuf ∧ t.ilen = s.ilen := by
  induction d generalizing s with
  | nil => exact ⟨s, rfl, rfl, rfl, rfl⟩
  | cons b d ih => exact ih (succeed { s with acc := crcByte s.acc b })

/-- A byte pushed where there is room is the input's last (R111). -/
theorem State.inputIs.push {s : State} {data : List Byte} (h : s.inputIs data) (hroom : s.ilen < 32) (b : Byte) :
    State.inputIs { s with ibuf := Memory.write s.ibuf s.ilen b, ilen := s.ilen + 1, err := .none } (data ++ [b]) where
  bound := hroom
  length := by simp [h.length]
  bytes := fun i hi => by
    rw [Memory.read_write]
    by_cases hlast : i = s.ilen
    · rw [if_pos hlast, hlast, ← h.length, List.getElem?_concat_length]
    · have hlt : i < s.ilen := by simp only at hi; omega
      rw [if_neg hlast, h.bytes i hlt, List.getElem?_append_left (h.length ▸ hlt)]

/-- IB.PUSH completes where `data` is loaded, and leaves as much of `data ++ [b]` as the buffer holds. -/
theorem execIbPush_of_input {s : State} {data : List Byte} (h : s.inputIs data) (b : Byte) :
    ∃ t, execIbPush b s = .next t ∧ t.inputIs ((data ++ [b]).take 32) := by
  have hlen := h.length
  rcases execIbPush_cases b s with ⟨hfull, hs⟩ | ⟨hroom, hs⟩ | ⟨hover, _⟩
  · refine ⟨_, hs, ?_⟩
    rw [List.take_left' (hlen.trans hfull)]
    exact ⟨h.bound, h.length, h.bytes⟩
  · refine ⟨_, hs, ?_⟩
    rw [List.take_of_length_le (by simp; omega)]
    exact h.push hroom b
  · exact absurd h.bound (Nat.not_le.mpr hover)

/-- What a cut drops makes no difference to a later cut at the same length. -/
theorem take_take_append (n : Nat) (x y : List Byte) : (x.take n ++ y).take n = (x ++ y).take n := by
  have hrest : n - min n x.length = n - x.length := by omega
  simp [List.take_append, hrest]

/-- IB.PUSH operations load what fits, in order, and drop the rest (R111). -/
theorem execAll_ibPushes (d : List Byte) {s : State} {data : List Byte} (h : s.inputIs data) :
    ∃ t, execAll (d.map .ibPush) s = .next t ∧ t.inputIs ((data ++ d).take 32) := by
  induction d generalizing s data with
  | nil =>
    have hfits : data.length ≤ 32 := h.length ▸ h.bound
    exact ⟨s, rfl, by rwa [List.append_nil, List.take_of_length_le hfits]⟩
  | cons b d ih =>
    obtain ⟨u, hu, hinput⟩ := execIbPush_of_input h b
    obtain ⟨t, ht, hloaded⟩ := ih hinput
    rw [take_take_append, ← List.append_cons] at hloaded
    exact ⟨t, (execAll_cons (i := .ibPush b) hu).trans ht, hloaded⟩

/-- IB.LOAD, from any state: the input is then the bytes, up to the buffer's capacity (R66). -/
theorem execAll_ibLoad (d : List Byte) (s : State) :
    ∃ t, execAll (ibLoad d) s = .next t ∧ t.inputIs (d.take 32) :=
  execAll_ibPushes d (s := succeed { s with ilen := 0 }) (data := [])
    ⟨Nat.zero_le _, rfl, fun i hi => absurd hi i.not_lt_zero⟩

/-- CRC.BUF where `data` is loaded (R76). -/
theorem exec_crcBuf_of_input {s : State} {data : List Byte} (h : s.inputIs data) :
    exec .crcBuf s = .next { s with acc := crc16 data, err := .none } := by
  rcases execCrcBuf_cases s with ⟨data', hread, hs⟩ | ⟨hnone, _⟩
  · cases hread.symm.trans (memRead_input h)
    exact hs
  · cases hnone.symm.trans (memRead_input h)

/-- Settles O54: one sum is folded from CRC.BYTE operations, the other read from the bytes loaded. -/
theorem twoWaysOfSummingAgree : Obligations.TwoWaysOfSummingAgree := by
  refine fun d s => ⟨execAll_crcBytes d (succeed { s with acc := config.crcInit }), fun hfits => ?_⟩
  obtain ⟨t, ht, hinput⟩ := execAll_ibLoad d s
  rw [List.take_of_length_le (show d.length ≤ 32 from hfits)] at hinput
  exact ⟨_, (execAll_append ht).trans (execAll_cons (exec_crcBuf_of_input hinput)), rfl⟩

/-- Cutting to the capacity of 32 bytes turns no other string into one of 19 bytes, and changes none of those. -/
theorem take_of_length_eq {d : List Byte} (h : (d.take 32).length = 19) : d.take 32 = d := by
  rw [List.length_take] at h
  exact List.take_of_length_le (by omega)

/-- Settles O55: the verdict on the bytes loaded is the verdict on the bytes given. -/
theorem loadedBytesDecodeAsTheSourceSays : Obligations.LoadedBytesDecodeAsTheSourceSays := by
  intro bytes s
  obtain ⟨t, ht, hinput⟩ := execAll_ibLoad bytes s
  have hrun : ∀ {u : State}, execDecResp t = .next u → execAll (decodeResponse bytes) s = .next u :=
    fun hu => (execAll_append ht).trans (execAll_cons hu)
  rcases execDecResp_of_input hinput with ⟨hlen, hs⟩ | ⟨hlen, hfn, hs⟩ | ⟨hlen, hfn, record, hrecord, hs⟩
  · have hwrong : bytes.length ≠ 19 := fun hbytes => hlen (by simp [hbytes])
    exact ⟨_, hrun hs, fun _ => ⟨rfl, rfl⟩, fun hf => absurd hf hwrong, fun hf => absurd hf hwrong⟩
  · have htake := take_of_length_eq hlen
    rw [htake] at hlen hfn
    exact ⟨_, hrun hs, fun hf => absurd hlen hf, fun _ _ => ⟨rfl, rfl⟩, fun _ hf => absurd hf hfn⟩
  · have htake := take_of_length_eq hlen
    rw [htake] at hlen hfn hrecord
    exact ⟨_, hrun hs, fun hf => absurd hlen hf, fun _ hf => absurd hfn hf, fun _ _ => ⟨rfl, rfl, hrecord⟩⟩

end Sys2Proof.Machine
end

section
/-! SUPPORT. The CRC functions of spec/40_crc.md: a round and a byte step can each be undone, so no change is ever lost;
rounds over zero low bits are shifts, so the two bytes of a CRC cancel it. -/

namespace Sys2Proof.Machine

/-- The bit shifted out comes back as bit 15: the shift leaves a 0 there, and the constant has a 1 (R70). -/
theorem getLsbD_crcRound_15 (a : Half) : (crcRound a).getLsbD 15 = a.getLsbD 0 := by
  cases h : a.getLsbD 0 <;> rw [crcRound, h] <;> simp

/-- A round on a value whose low bit is 0 only shifts. -/
theorem crcRound_of_low_zero {a : Half} (h : a.getLsbD 0 = false) : crcRound a = a >>> 1 :=
  if_neg (Bool.eq_false_iff.mp h)

/-- The shifted value is what a round gives, with the constant taken out again where it went in. -/
theorem ushiftRight_eq_crcRound (a : Half) :
    a >>> 1 = if a.getLsbD 0 then crcRound a ^^^ config.crcPoly else crcRound a := by
  cases h : a.getLsbD 0 <;> rw [crcRound, h] <;> simp

/-- A value is its low bit and the rest shifted down. -/
theorem eq_of_ushiftRight_one {a a' : Half} (hlow : a.getLsbD 0 = a'.getLsbD 0) (hrest : a >>> 1 = a' >>> 1) :
    a = a' := by
  refine BitVec.eq_of_getLsbD_eq fun i _ => ?_
  cases i with
  | zero => exact hlow
  | succ i =>
    have hbit := congrArg (·.getLsbD i) hrest
    simpa [Nat.add_comm] using hbit

/-- A round loses nothing: bit 15 of the result tells whether the constant went in. -/
theorem crcRound_injective : Function.Injective crcRound := by
  intro a a' h
  have hlow : a.getLsbD 0 = a'.getLsbD 0 := by rw [← getLsbD_crcRound_15, h, getLsbD_crcRound_15]
  exact eq_of_ushiftRight_one hlow (by rw [ushiftRight_eq_crcRound, ushiftRight_eq_crcRound, hlow, h])

/-- Rounds in a row lose nothing either. -/
theorem crcRounds_injective (n : Nat) : Function.Injective (crcRounds n) := by
  induction n with
  | zero => exact Function.injective_id
  | succ n ih => exact ih.comp crcRound_injective

/-- For a fixed byte, the byte step loses nothing of the accumulator. -/
theorem crcByte_acc_injective (b : Byte) : Function.Injective (crcByte · b) :=
  fun _ _ h => (BitVec.xor_left_inj _).mp (crcRounds_injective _ h)

/-- For a fixed accumulator, the byte step loses nothing of the byte. -/
theorem crcByte_byte_injective (a : Half) : Function.Injective (crcByte a) := by
  intro b b' h
  have hwide : (b.setWidth 16 : Half) = b'.setWidth 16 := (BitVec.xor_right_inj _).mp (crcRounds_injective _ h)
  simpa using congrArg (BitVec.setWidth 8) hwide

/-- However many bytes follow, nothing of the accumulator they start from is lost. -/
theorem crcFold_acc_injective (data : List Byte) : Function.Injective (crcFold · data) := by
  induction data with
  | nil => exact Function.injective_id
  | cons b bs ih => exact ih.comp (crcByte_acc_injective b)

/-- The fold is the library's (R72). -/
theorem crcFold_eq_foldl (a : Half) (data : List Byte) : crcFold a data = data.foldl crcByte a := by
  induction data generalizing a with
  | nil => rfl
  | cons b bs ih => exact ih (crcByte a b)

/-- The concatenation law (R73). -/
theorem crcFold_append (a : Half) (x y : List Byte) : crcFold a (x ++ y) = crcFold (crcFold a x) y := by
  simp only [crcFold_eq_foldl, List.foldl_append]

/-- The concatenation law of the CRC itself: it is the fold from one start. -/
theorem crc16_append (x y : List Byte) : crc16 (x ++ y) = crcFold (crc16 x) y := crcFold_append config.crcInit x y

/-- While the bits that reach the low end are zero, rounds only shift. -/
theorem crcRounds_of_low_zeros {n : Nat} {a : Half} (h : ∀ i < n, a.getLsbD i = false) :
    crcRounds n a = a >>> n := by
  induction n generalizing a with
  | zero => simp [crcRounds]
  | succ n ih =>
    have hrest : ∀ i < n, (a >>> 1).getLsbD i = false := fun i hi => by
      simpa [Nat.add_comm] using h (i + 1) (by omega)
    calc crcRounds (n + 1) a = crcRounds n (a >>> 1) := by rw [crcRounds, crcRound_of_low_zero (h 0 (by omega))]
      _ = a >>> 1 >>> n := ih hrest
      _ = a >>> (n + 1) := by rw [← BitVec.shiftRight_add, Nat.add_comm]

/-- A byte XORed in leaves the high byte (R71). -/
theorem high_byte_xor_setWidth (a : Half) (b : Byte) : byteOf (a ^^^ b.setWidth 16) 1 = byteOf a 1 := by
  ext i hi
  simp [byteOf]

/-- A byte XORed in meets the low byte (R71). -/
theorem low_byte_xor_setWidth (a : Half) (b : Byte) : byteOf (a ^^^ b.setWidth 16) 0 = byteOf a 0 ^^^ b := by
  ext i hi
  have hwide : i < 16 := by omega
  simp [byteOf, hwide, BitVec.getLsbD_eq_getElem hi]

/-- Eight rounds over a zero low byte bring the high byte down. -/
theorem crcRounds_of_low_byte_zero {a : Half} (h : byteOf a 0 = 0) : crcRounds 8 a = (byteOf a 1).setWidth 16 := by
  have hlow : ∀ i < 8, a.getLsbD i = false := fun i hi => by
    simpa [byteOf, hi] using congrArg (·.getLsbD i) h
  rw [crcRounds_of_low_zeros hlow]
  ext i hi
  by_cases h8 : i < 8
  · simp [byteOf, h8]
  · simp [byteOf, h8, BitVec.getLsbD_of_ge a (8 + i) (by omega)]

/-- The accumulator's own low byte clears it, and the rounds bring the high byte down (R77). -/
theorem crcByte_own_low_byte (c : Half) : crcByte c (byteOf c 0) = (byteOf c 1).setWidth 16 := by
  have hlow : byteOf (c ^^^ (byteOf c 0).setWidth 16) 0 = 0 :=
    (low_byte_xor_setWidth c (byteOf c 0)).trans BitVec.xor_self
  calc crcByte c (byteOf c 0) = (byteOf (c ^^^ (byteOf c 0).setWidth 16) 1).setWidth 16 :=
        crcRounds_of_low_byte_zero hlow
    _ = (byteOf c 1).setWidth 16 := by rw [high_byte_xor_setWidth]

/-- A byte fed to an accumulator that holds just that byte leaves zero (R77). -/
theorem crcByte_own_byte (b : Byte) : crcByte (b.setWidth 16) b = 0 := by
  rw [crcByte, BitVec.xor_self]
  exact crcRounds_of_low_zeros fun _ _ => BitVec.getLsbD_zero

/-- Settles O5: a fold over a concatenation. -/
theorem crcFoldOverConcatenation : Obligations.CrcFoldOverConcatenation :=
  ⟨crcFold_append, crc16_append, rfl⟩

/-- Settles O6: the two appended bytes cancel the accumulator, the low one first. -/
theorem crcResidueIsZero : Obligations.CrcResidueIsZero := by
  refine ⟨fun x => ?_, fun c => ⟨crcByte_own_low_byte c, crcByte_own_byte (byteOf c 1)⟩⟩
  calc crc16 (x ++ le16Pack (crc16 x))
      = crcByte (crcByte (crc16 x) (byteOf (crc16 x) 0)) (byteOf (crc16 x) 1) := crc16_append x _
    _ = 0 := by rw [crcByte_own_low_byte, crcByte_own_byte]

/-- Settles O7: the changed byte changes the accumulator, and no later byte undoes that. -/
theorem crcChangesWithAnyOneByte : Obligations.CrcChangesWithAnyOneByte := by
  intro x y b b' hne heq
  rw [crc16_append, crc16_append] at heq
  exact hne (crcByte_byte_injective (crc16 x) (crcFold_acc_injective y heq))

/-- Settles O2: it is the round's definition, and that bit 15 tells the bit shifted out. -/
theorem crcRoundTestsBeforeShifting : Obligations.CrcRoundTestsBeforeShifting :=
  fun a => ⟨rfl, by simp, getLsbD_crcRound_15 a⟩

/-- Settles O3: the two bytes of the value the rounds start from. -/
theorem crcByteIsXorThenEightRounds : Obligations.CrcByteIsXorThenEightRounds :=
  fun a b => ⟨a ^^^ b.setWidth 16, rfl, high_byte_xor_setWidth a b, low_byte_xor_setWidth a b, rfl⟩

/-- Settles O4: the model's fold is the library's, from either start. -/
theorem crcIsLeftFoldFromFFFF : Obligations.CrcIsLeftFoldFromFFFF :=
  fun data => ⟨crcFold_eq_foldl config.crcInit data, fun a => crcFold_eq_foldl a data⟩

end Sys2Proof.Machine
end

section
/-! SUPPORT. The "Encoding" and "Errors" lines of an operation's rule, once per format (R51, R53), and the operations
of the CRC unit. -/

namespace Sys2Proof.Machine

/-- A word that names no operation ends with IllegalOp. -/
theorem endsIllegal_of_undecodable {w : OpWord} (h : ¬∃ i, decodeFields (opOf w) (immOf w) = .ok i) :
    endsIllegal w := by
  obtain ⟨_, _, hstep⟩ := illegalWordsChangeOnlyErr
  exact fun s rest hin => hstep s w rest hin h

/-- A format N code is no other format's, so a zero immediate alone makes it legal (R51, R52). -/
theorem decodeFields_ok_iff_of_formatN {op : Byte} {imm : Word} (hop : op ∈ formatNCodes) :
    (∃ i, decodeFields op imm = .ok i) ↔ imm = 0 := by
  have hother : ∀ c ∈ formatNCodes, c ∉ formatBCodes ∧ c ≠ 0x42 := by decide
  obtain ⟨hB, hW⟩ := hother op hop
  simp only [decodeFields_ok_iff, hop, hB, hW, true_and, false_and, or_false]

/-- A format B code is no other format's, so a byte immediate alone makes it legal (R51, R52). -/
theorem decodeFields_ok_iff_of_formatB {op : Byte} {imm : Word} (hop : op ∈ formatBCodes) :
    (∃ i, decodeFields op imm = .ok i) ↔ immHigh imm = 0 := by
  have hother : ∀ c ∈ formatBCodes, c ∉ formatNCodes ∧ c ≠ 0x42 := by decide
  obtain ⟨hN, hW⟩ := hother op hop
  simp only [decodeFields_ok_iff, hop, hN, hW, true_and, false_and, false_or, or_false]

/-- A format N operation has the one word of its code (R51). -/
theorem hasWordN_of_encode {i : Instr} {op : Byte} (hop : op ∈ formatNCodes)
    (henc : encode i = .word (packWord op 0)) : hasWordN i (packWord op 0) := by
  refine ⟨henc, decodeWord_ok_iff.mpr henc, fun w hcode himm => ?_⟩
  have hw : opOf w = op := hcode.trans (opOf_packWord op 0)
  exact endsIllegal_of_undecodable fun hd => himm ((decodeFields_ok_iff_of_formatN (hw ▸ hop)).mp hd)

/-- A value below another in a word is that word ORed in below zeros. -/
theorem append_setWidth_eq_or {n m k : Nat} (x : BitVec n) (b : BitVec k) (hfits : k ≤ m) :
    x ++ b.setWidth m = (x ++ (0 : BitVec m)) ||| b.setWidth (n + m) := by
  ext i hi
  by_cases h : i < m
  · simp [BitVec.getElem_append, h]
  · simp [BitVec.getElem_append, h, BitVec.getLsbD_of_ge b i (by omega)]

/-- The word of a byte operand is the code's word with the byte in its low bits. -/
theorem packWord_byteImm (op b : Byte) : packWord op (byteImm b) = packWord op 0 ||| b.setWidth 40 :=
  append_setWidth_eq_or op b (by omega)

/-- A format B operation has a word for each byte of its code (R51). -/
theorem hasWordB_of_encode {i : Byte → Instr} {op : Byte} (hop : op ∈ formatBCodes)
    (henc : ∀ b, encode (i b) = .word (packWord op (byteImm b))) : hasWordB i (packWord op 0) := by
  refine ⟨fun b => ?_, fun w hcode himm => ?_⟩
  · rw [← packWord_byteImm]
    exact ⟨henc b, decodeWord_ok_iff.mpr (henc b)⟩
  · have hw : opOf w = op := hcode.trans (opOf_packWord op 0)
    rw [← immHigh_immOf] at himm
    exact endsIllegal_of_undecodable fun hd => himm ((decodeFields_ok_iff_of_formatB (hw ▸ hop)).mp hd)

/-- Settles O14: the bytes read are the input, and an empty input is no bytes. -/
theorem crcBufSumsTheInput : Obligations.CrcBufSumsTheInput := by
  refine ⟨hasWordN_of_encode (op := 0x03) (by decide) rfl, fun s data h => ⟨exec_crcBuf_of_input h, fun hempty => ?_⟩⟩
  have hnil : data = [] := List.eq_nil_of_length_eq_zero (h.length.trans hempty)
  rw [exec_crcBuf_of_input h, hnil]
  rfl

/-- Settles O12: format N, and its effect in one equation. -/
theorem crcInitSetsAccToFFFF : Obligations.CrcInitSetsAccToFFFF :=
  ⟨hasWordN_of_encode (op := 0x01) (by decide) rfl, fun _ => rfl⟩

/-- Settles O13: format B, and its effect in one equation. -/
theorem crcByteFeedsOneByte : Obligations.CrcByteFeedsOneByte :=
  ⟨hasWordB_of_encode (op := 0x02) (by decide) fun _ => rfl, fun _ _ => rfl⟩

end Sys2Proof.Machine
end

section
/-! SUPPORT. Building frames (spec/41_frame_encode.md): ENC.FRAME on loaded bytes, the two fixed frames, and how long a
built frame stays. -/

namespace Sys2Proof.Machine

/-- A stretch of a byte sequence written at index 0 is read back. -/
theorem Memory.readBytes_writeBytes_slice (m : Memory) {bs : List Byte} {k n : Nat} (hfit : k + n ≤ bs.length) :
    Memory.readBytes (Memory.writeBytes m 0 bs) k n = some ((bs.drop k).take n) := by
  refine Memory.readBytes_of_read (by simp; omega) fun i hi => ?_
  rw [Memory.read_writeBytes, if_pos (by omega), List.getElem?_take_of_lt hi, List.getElem?_drop, Nat.sub_zero]

/-! ### ENC.FRAME on a loaded body -/

/-- ENC.FRAME frames the loaded body, where it is long enough (R83). -/
theorem exec_encFrame_of_input {s : State} {body : List Byte} (h : s.inputIs body) (hmin : 3 ≤ s.ilen) :
    exec .encFrame s = emitFrame body s := by
  simp only [exec, execEncFrame, config_bodyMin, if_neg (Nat.not_lt.mpr hmin), memRead_input h]

/-- ENC.FRAME rejects a body under three bytes, loaded or not (R83). -/
theorem exec_encFrame_short {s : State} (hshort : s.ilen < 3) :
    exec .encFrame s = .next { s with err := .badOperand } :=
  if_pos hshort

/-- Settles O17: format N, and a body within `IBUF_MAX` always fits `OBUF` with its CRC. -/
theorem encFrameBuildsTheGeneralFrame : Obligations.EncFrameBuildsTheGeneralFrame := by
  refine ⟨hasWordN_of_encode (op := 0x12) (by decide) rfl, fun _ => exec_encFrame_short, fun s body h hmin => ?_⟩
  have hfit : body.length + 2 ≤ 34 := Nat.add_le_add_right (h.length ▸ h.bound) 2
  rw [exec_encFrame_of_input h hmin, emitFrame_fits s hfit, h.length, buildFrame]

/-- ENC.FRAME on a loaded move body is ENC.MOVE for that body's position, but for `OPA`. -/
theorem exec_encFrame_of_moveBody {s : State} {w : Word} (h : s.inputIs (moveBody w)) :
    mapOutcome (fun t => { t with opa := w }) (exec .encFrame s) = exec .encMove { s with opa := w } := by
  have hlen : s.ilen = 7 := h.length.symm.trans (moveBody_length w)
  have hfit : (moveBody w).length + 2 ≤ 34 := by simp
  rw [exec_encFrame_of_input h (by omega), emitFrame_fits s hfit, exec_encMove]
  rfl

/-- ENC.FRAME on the loaded enable body is ENC.ENABLE. -/
theorem exec_encFrame_of_enableBody {s : State} (h : s.inputIs enableBody) :
    exec .encFrame s = exec .encEnable s := by
  have hlen : s.ilen = 7 := h.length.symm.trans enableBody_length
  exact exec_encFrame_of_input h (by omega)

/-- Settles O18: the three operations frame their bodies by one rule, and the written-out bodies are the two constant
ones. -/
theorem encFrameAgreesWithMoveAndEnable : Obligations.EncFrameAgreesWithMoveAndEnable :=
  ⟨fun _ _ => exec_encFrame_of_moveBody, fun _ => exec_encFrame_of_enableBody⟩

/-! ### The lifetime of a built frame (R84) -/

/-- An instruction that changes `OBUF` or `OLEN` is an ENC operation that succeeded. -/
theorem Effect.enc_of_frame_change {s t : State} {i : Instr} (h : Effect s i t)
    (hchange : t.obuf ≠ s.obuf ∨ t.olen ≠ s.olen) :
    (i = .encEnable ∨ i = .encMove ∨ i = .encFrame) ∧ t.err = .none := by
  cases h with
  | encEnable | encMove | encFrame _ _ => simp
  | _ => simp at hchange

/-- An ENC operation that succeeds has put the frame of some body in `OBUF`, over whatever stood there. -/
theorem Effect.frame_of_enc {s t : State} {i : Instr} (h : Effect s i t)
    (henc : i = .encEnable ∨ i = .encMove ∨ i = .encFrame) (hok : t.err = .none) :
    ∃ body : List Byte, t.olen = body.length + 2 ∧ t.acc = crc16 body ∧
      t.obuf = Memory.writeBytes s.obuf 0 (buildFrame body) := by
  cases h with
  | encEnable => exact ⟨enableBody, by simp⟩
  | encMove => exact ⟨moveBody s.opa, by simp⟩
  | encFrameShort _ => cases hok
  | encFrame _ hinput => exact ⟨_, by rw [hinput.length], rfl, rfl⟩
  | _ => simp at henc

/-- Settles O49: an illegal word changes neither item, and a legal one has its instruction's effect. -/
theorem builtFrameChangesOnlyBySuccessfulEnc : Obligations.BuiltFrameChangesOnlyBySuccessfulEnc := by
  intro s t w rest hin hstep
  cases hd : decodeWord w with
  | error e =>
    obtain rfl := next_inj ((step_of_decodeWord_error hin hd).symm.trans hstep)
    simp
  | ok i =>
    have heff : Effect { s with inbox := rest } i t := exec_effect ((step_of_decode_ok hin hd).symm.trans hstep)
    simp only [Except.ok.injEq]
    refine ⟨heff.enc_of_frame_change, fun henc hok => ?_⟩
    obtain ⟨body, holen, hacc, hobuf⟩ := heff.frame_of_enc henc hok
    refine ⟨body, holen, hacc, ?_⟩
    rw [hobuf, holen, ← buildFrame_length]
    exact Memory.readBytes_writeBytes s.obuf (buildFrame body)

/-! ### The two fixed frames -/

/-- Bytes 3 to 6 of a built move frame are its position, most significant byte first (R56). -/
theorem readBytes_move_position (m : Memory) (w : Word) :
    Memory.readBytes (Memory.writeBytes m 0 (buildFrame (moveBody w))) 3 4 = some (be32Pack w) :=
  Memory.readBytes_writeBytes_slice m (by simp)

/-- Settles O53: the position's bytes are read back from the frame, and unpacking undoes the packing (R59). -/
theorem moveFrameRoundTripsThePosition : Obligations.MoveFrameRoundTripsThePosition := by
  intro v s hmin hmax
  have hrun := execAll_cons (i := .setOpa (pattern v)) (is := [.encMove]) (s := s) rfl
  rw [execAll_cons (exec_encMove _)] at hrun
  exact ⟨_, _, _, _, _, hrun, readBytes_move_position s.obuf (pattern v),
    (be32UnpackS_byteOf (pattern v)).trans (signed_pattern hmin hmax)⟩

/-- R81: the CRC of the enable body, which the frame sends as `03 E7`. -/
theorem crc16_enableBody : crc16 enableBody = 0xE703 := by decide +kernel

/-- R55: the enable frame's nine bytes. -/
theorem buildFrame_enableBody :
    buildFrame enableBody = [0x01, 0x64, 0x10, 0x00, 0x00, 0x00, 0x01, 0x03, 0xE7] := by
  rw [buildFrame, crc16_enableBody]
  rfl

/-- Settles O15: format N, and the frame's constant bytes. -/
theorem encEnableBuildsTheEnableFrame : Obligations.EncEnableBuildsTheEnableFrame := by
  refine ⟨hasWordN_of_encode (op := 0x10) (by decide) rfl, fun s => ?_⟩
  rw [exec_encEnable, buildFrame_enableBody, crc16_enableBody]

/-- Settles O16: format N, and the operation's effect, the CRC's two bytes low byte first (R61). -/
theorem encMoveBuildsTheMoveFrame : Obligations.EncMoveBuildsTheMoveFrame :=
  ⟨hasWordN_of_encode (op := 0x11) (by decide) rfl, fun s => ⟨moveBody s.opa, _, rfl, rfl, exec_encMove s⟩⟩

end Sys2Proof.Machine
end

section
/-! SUPPORT. Decoding response frames (spec/42_frame_decode.md): DEC.RESP's two checks in their order, and the bytes it
looks at. -/

namespace Sys2Proof.Machine

/-- Settles O19: format N, the length before any byte, then the verdict on byte 1 of what is loaded. -/
theorem decRespChecksThenUnpacks : Obligations.DecRespChecksThenUnpacks := by
  refine ⟨hasWordN_of_encode (op := 0x20) (by decide) rfl, fun _ => execDecResp_of_wrong_length,
    fun s f h hlen => ?_⟩
  rcases execDecResp_of_input h with ⟨hwrong, _⟩ | ⟨_, hother, hs⟩ | ⟨_, hright, record, hrecord, hs⟩
  · exact absurd (h.length.trans hlen) hwrong
  · exact ⟨fun _ _ _ => hs, fun hfn => absurd hfn hother⟩
  · exact ⟨fun _ hfn hne => absurd (Option.some.inj (hfn.symm.trans hright)) hne, fun _ => ⟨record, hrecord, hs⟩⟩

/-- A `MemRead` within `IBUF[1..16]` sees neither the other bytes of `IBUF` nor `ACC`. -/
theorem memRead_ibuf_of_agree {s : State} {m : Memory} (acc : Half)
    (hagree : ∀ i, 1 ≤ i → i ≤ 16 → Memory.read m i = Memory.read s.ibuf i) {k n : Nat} (hlow : 1 ≤ k)
    (hhigh : k + n ≤ 17) : memRead .ibuf k n { s with ibuf := m, acc := acc } = memRead .ibuf k n s :=
  memRead_congr rfl fun i hi _ => hagree (k + i) (by omega) (by omega)

/-- Settles O22: DEC.RESP's two reads are of byte 1 and of bytes 2 to 16 (R93, R94), and each of its endings keeps
`IBUF` and `ACC`. -/
theorem decRespReadsOnlyBytes1To16 : Obligations.DecRespReadsOnlyBytes1To16 := by
  intro s m a hagree
  have hfunction := memRead_ibuf_of_agree a hagree (k := 1) (n := 1) (by omega) (by omega)
  have hfields := memRead_ibuf_of_agree a hagree (k := 2) (n := 15) (by omega) (by omega)
  simp only [exec, execDecResp, unpackResponse, hfunction, hfields]
  split
  · rfl
  · split
    · split
      · rfl
      · cases (memRead .ibuf 2 15 s).bind unpackFields <;> rfl
    · rfl

end Sys2Proof.Machine
end

section
/-! SUPPORT. The telemetry unpacker (spec/43_telemetry_unpack.md): each field's offset and reading, and where it is
undefined. -/

namespace Sys2Proof.Machine

/-- R60: the low eight bits of a big-endian pair are its second byte's, the high eight its first byte's. -/
theorem be16Unpack_getLsbD (b0 b1 : Byte) (i : Nat) :
    (be16Unpack b0 b1).getLsbD i = if i < 8 then b1.getLsbD i else b0.getLsbD (i - 8) :=
  BitVec.getLsbD_append

/-- The six fields of 19 bytes, each at its offset (R96 to R101). -/
theorem unpackTelemetry_nineteen (b0 b1 b2 b3 b4 b5 b6 b7 b8 b9 b10 b11 b12 b13 b14 b15 b16 b17 b18 : Byte) :
    unpackTelemetry [b0, b1, b2, b3, b4, b5, b6, b7, b8, b9, b10, b11, b12, b13, b14, b15, b16, b17, b18] =
      some ⟨be32Unpack b2 b3 b4 b5, be32Unpack b6 b7 b8 b9, be16Unpack b10 b11, b12, be16Unpack b13 b14,
        be16Unpack b15 b16⟩ :=
  rfl

/-- Settles O20: the record of 19 bytes is written out, its 16-bit fields are read as numbers (R60) and its bitmap's
outer bits as those of the two bytes; another length is refused before any byte is looked at (R95). -/
theorem unpackReadsTheFixedFields : Obligations.UnpackReadsTheFixedFields := by
  constructor
  · intro b0 b1 b2 b3 b4 b5 b6 b7 b8 b9 b10 b11 b12 b13 b14 b15 b16 b17 b18
    have hbitmap := be16Unpack_getLsbD b15 b16
    exact ⟨_, unpackTelemetry_nineteen .., rfl, rfl, toNat_be16Unpack b10 b11, rfl, toNat_be16Unpack b13 b14,
      toNat_be16Unpack b15 b16, hbitmap 15, hbitmap 0⟩
  · exact fun f hlen => if_neg hlen

end Sys2Proof.Machine
end

section
/-! SUPPORT. Packing a PID gain (spec/44_pid_pack.md): PACK.F32's one effect, on any pattern. -/

namespace Sys2Proof.Machine

/-- R105: PACK.F32 has no failing case, and sets the two values of `OPA` and `ERR` alone. -/
theorem exec_packF32 (s : State) : exec .packF32 s =
    .next { s with w0 := (f32Words s.opa).1, w1 := (f32Words s.opa).2, err := .none } :=
  rfl

/-- Settles O23: format N, and the two values are the byte pairs of R62. -/
theorem packF32WritesBothWords : Obligations.PackF32WritesBothWords := by
  refine ⟨hasWordN_of_encode (op := 0x30) (by decide) rfl, fun s => ?_⟩
  obtain ⟨hlow, hhigh, _⟩ := f32WordsReverseTheBytes s.opa
  rw [exec_packF32, hlow, hhigh]

end Sys2Proof.Machine
end

section
/-! SUPPORT. Loading the input buffer and the operand (spec/45_buffer_operand.md): IB.PUSH by whether the buffer has
room, and the words of the one format W operation. -/

namespace Sys2Proof.Machine

/-- IB.PUSH into a full buffer drops the byte (R111). -/
theorem exec_ibPush_full {s : State} (hfull : s.ilen = 32) (b : Byte) :
    exec (.ibPush b) s = .next { s with err := .badOperand } :=
  (execIbPush_eq b s).trans (if_pos hfull)

/-- IB.PUSH where there is room puts the byte at index `ILEN` (R111). -/
theorem exec_ibPush_room {s : State} (hroom : s.ilen < 32) (b : Byte) : exec (.ibPush b) s =
    .next { s with ibuf := Memory.write s.ibuf s.ilen b, ilen := s.ilen + 1, err := .none } := by
  have hnotFull : s.ilen ≠ 32 := hroom.ne
  exact (execIbPush_eq b s).trans ((if_neg hnotFull).trans (if_pos hroom))

/-- Settles O26: format B, the full buffer and the buffer with room, whose new byte is the input's last. -/
theorem ibPushAppendsOneByte : Obligations.IbPushAppendsOneByte :=
  ⟨hasWordB_of_encode (op := 0x41) (by decide) fun _ => rfl,
    fun b _ hfull => exec_ibPush_full hfull b,
    fun b _ hroom => ⟨exec_ibPush_room hroom b, fun _ hinput => hinput.push hroom b⟩⟩

/-- The word of a pattern operand is the code's word with the pattern in its low bits. -/
theorem packWord_eq_or (op : Byte) (v : Word) : packWord op v = packWord op 0 ||| v.setWidth 40 := by
  have h := append_setWidth_eq_or op v (Nat.le_refl 32)
  rwa [BitVec.setWidth_eq] at h

/-- A format W operation has every word of its code (R51). -/
theorem hasWordW_of_encode {i : Word → Instr} {op : Byte} (henc : ∀ v, encode (i v) = .word (packWord op v)) :
    hasWordW i (packWord op 0) := by
  refine ⟨fun v => (henc v).trans (congrArg _ (packWord_eq_or op v)), fun w hcode => ?_⟩
  have hop : opOf w = op := hcode.trans (opOf_packWord op 0)
  have hw : packWord op (immOf w) = w := hop ▸ packWord_fields w
  exact decodeWord_ok_iff.mpr ((henc (immOf w)).trans (congrArg _ hw))

/-- Settles O24: format W, and its effect in one equation. -/
theorem setOpaLoadsThePattern : Obligations.SetOpaLoadsThePattern :=
  ⟨hasWordW_of_encode (op := 0x42) fun _ => rfl, fun _ _ => rfl⟩

/-- Settles O25: format N, and its effect in one equation. -/
theorem ibClrEmptiesTheInput : Obligations.IbClrEmptiesTheInput :=
  ⟨hasWordN_of_encode (op := 0x40) (by decide) rfl, fun _ => rfl⟩

end Sys2Proof.Machine
end

section
/-! SUPPORT. Errors (spec/60_exceptions.md): each error code's one condition, read off the effects of the instructions,
and what an error leaves unchanged. -/

namespace Sys2Proof.Machine

section
variable {s t : State} {i : Instr}

/-- An error other than DEC.RESP's changes `ERR` and nothing else (R125, R127). -/
theorem Effect.eq_of_error (h : Effect s i t) (herr : t.err ≠ .none) (hne : i ≠ .decResp) :
    t = { s with err := t.err } := by
  cases h with
  | encFrameShort _ | ibPushFull _ _ => rfl
  | decRespLength _ | decRespFunction _ _ _ | decRespAccept _ _ _ _ => exact absurd rfl hne
  | _ => exact absurd rfl herr

/-- An error of DEC.RESP also clears `TVALID` (R92, R127). -/
theorem Effect.eq_of_decResp_error (h : Effect s .decResp t) (herr : t.err ≠ .none) :
    t = { s with tvalid := false, err := t.err } := by
  cases h with
  | decRespLength _ | decRespFunction _ _ _ => rfl
  | decRespAccept _ _ _ _ => exact absurd rfl herr

/-- No instruction raises IllegalOp: it is the decoder's error (R124). -/
theorem Effect.err_ne_illegalOp (h : Effect s i t) : t.err ≠ .illegalOp := by
  cases h <;> simp

/-- R122: BadLength is DEC.RESP's length check. -/
theorem Effect.err_eq_badLength_iff (h : Effect s i t) : t.err = .badLength ↔ i = .decResp ∧ s.ilen ≠ 19 := by
  cases h with
  | decRespLength hlen => simp [hlen]
  | decRespFunction hlen _ _ | decRespAccept hlen _ _ _ => simp [hlen]
  | _ => simp

/-- R123: BadFunction is DEC.RESP's check of byte 1, after the length. -/
theorem Effect.err_eq_badFunction_iff (h : Effect s i t) :
    t.err = .badFunction ↔ i = .decResp ∧ s.ilen = 19 ∧ Memory.read s.ibuf 1 ≠ some 0x64 := by
  cases h with
  | decRespLength hlen => simp [hlen]
  | decRespFunction hlen hread hfn => simpa [hlen, hread] using hfn
  | decRespAccept _ hread _ _ => simp [hread]
  | _ => simp

/-- R125: BadOperand is ENC.FRAME's short body or IB.PUSH's full buffer. -/
theorem Effect.err_eq_badOperand_iff (h : Effect s i t) :
    t.err = .badOperand ↔ (i = .encFrame ∧ s.ilen < 3) ∨ ∃ b, i = .ibPush b ∧ s.ilen = 32 := by
  cases h with
  | encFrameShort hshort => simp [hshort]
  | encFrame hmin _ => simp [hmin]
  | ibPushFull _ hfull => simp [hfull]
  | ibPush _ hroom => simp [hroom.ne]
  | _ => simp

end

/-- Settles O32: the effects that end in an error list `ERR`, and for DEC.RESP `TVALID`. -/
theorem errorsArePrecise : Obligations.ErrorsArePrecise := by
  intro i s t h herr
  refine ⟨(exec_effect h).eq_of_error herr, ?_⟩
  rintro rfl
  exact (exec_effect h).eq_of_decResp_error herr

/-- Settles O33: an illegal word raises IllegalOp and has no instruction to raise another error; a legal one ends as its
instruction's effect does. -/
theorem errorCodesNameTheirCauses : Obligations.ErrorCodesNameTheirCauses := by
  refine ⟨⟨rfl, rfl, rfl, rfl, rfl⟩, fun s t w rest hin hstep => ?_⟩
  cases hd : decodeWord w with
  | error e =>
    obtain rfl := next_inj ((step_of_decodeWord_error hin hd).symm.trans hstep)
    simp
  | ok i =>
    have heff : Effect { s with inbox := rest } i t := exec_effect ((step_of_decode_ok hin hd).symm.trans hstep)
    simp only [Except.ok.injEq]
    exact ⟨by simp [heff.err_ne_illegalOp], heff.err_eq_badLength_iff, heff.err_eq_badFunction_iff,
      heff.err_eq_badOperand_iff⟩

/-- Settles O41: it is the step's equation for an empty `inbox`. -/
theorem idleBlockHoldsItsState : Obligations.IdleBlockHoldsItsState :=
  fun _ => step_of_inbox_nil

end Sys2Proof.Machine
end

section
/-! SUPPORT. The reset event, and the first operations after it (spec/70_reset_and_hazards.md): the input is empty, `ACC`
is the CRC's start and `OPA` is the position 0. -/

namespace Sys2Proof.Machine

/-- R140: nothing is loaded after reset. -/
theorem State.reset_inputIs_nil : State.reset.inputIs [] :=
  ⟨Nat.zero_le _, rfl, fun i hi => absurd hi i.not_lt_zero⟩

/-- R142: the CRC of position 0's move body, which the frame sends as `AB E6`. -/
theorem crc16_moveBody_zero : crc16 (moveBody 0) = 0xE6AB := by decide +kernel

/-- R142: the nine bytes of the move frame for position 0. -/
theorem buildFrame_moveBody_zero :
    buildFrame (moveBody 0) = [0x01, 0x64, 0x1E, 0x00, 0x00, 0x00, 0x00, 0xAB, 0xE6] := by
  rw [buildFrame, crc16_moveBody_zero]
  rfl

/-- Settles O42: it is the step's equation for a reset event, read a register at a time. -/
theorem resetEventRestoresTheResetValues : Obligations.ResetEventRestoresTheResetValues :=
  fun _ _ hin => ⟨_, step_of_reset hin, rfl, rfl, rfl, rfl, rfl, rfl, rfl, rfl, rfl⟩

/-- Settles O56: each operation's rule, at the values of `ACC`, `ILEN` and `OPA` after reset. -/
theorem firstOperationsAfterReset : Obligations.FirstOperationsAfterReset := by
  refine ⟨fun d => ?_, execDecResp_of_wrong_length (by decide), exec_crcBuf_of_input State.reset_inputIs_nil,
    exec_encFrame_short (by decide), _, exec_encMove State.reset, rfl, ?_⟩
  · obtain ⟨t, hrun, hacc, _⟩ := execAll_crcBytes d State.reset
    exact ⟨t, hrun, hacc⟩
  · rw [← buildFrame_moveBody_zero]
    exact Memory.readBytes_writeBytes State.reset.obuf (buildFrame (moveBody 0))

end Sys2Proof.Machine
end
